-- ==== Sys2Proof/Word.lean ====
section
/-! DEFINITION. The word types of the engine: bytes, 32-bit host words, the 64-bit Mode A state, and byte strings of a fixed length
(R7, R10, R16). -/

namespace Sys2Proof

/-- One byte. -/
abbrev Byte := BitVec 8

/-- A 32-bit register or output word (R7, R10). -/
abbrev Word := BitVec 32

/-- The 64-bit LcgState (R7, R37). -/
abbrev DWord := BitVec 64

/-- A byte string of `n` bytes; byte `i` is `b[i]`, counted from 0 (R16). -/
abbrev Bytes (n : Nat) := Vector Byte n

end Sys2Proof
end

