-- ==== Sys2Proof/Machine/Operands.lean ====
section
/-! DEFINITION. The operand forms of the engine: byte strings, their slices, and the little-endian words taken from them (R15, R16, R63,
R66, R67, R102). Commands have no other operand form (R77). -/

namespace Sys2Proof.Machine

/-- `b[i]`; 0 beyond the end, which no rule reads (R16). -/
def byteAt {n : Nat} (b : Bytes n) (i : Nat) : Byte := if h : i < n then b[i] else 0

/-- The `len` bytes `b[lo..lo+len)` (R16). -/
def slice {n : Nat} (b : Bytes n) (lo len : Nat) : Bytes len := Vector.ofFn fun k => byteAt b (lo + k.val)

/-- `LE32(b4)` (R16). -/
def le32 (b : Bytes 4) : Word :=
  BitVec.ofNat 32 ((byteAt b 0).toNat + 2 ^ 8 * (byteAt b 1).toNat + 2 ^ 16 * (byteAt b 2).toNat + 2 ^ 24 * (byteAt b 3).toNat)

/-- `LEBYTES32(v)`: the bytes `v[7:0], v[15:8], v[23:16], v[31:24]` (R16). -/
def leBytes32 (v : Word) : Bytes 4 := Vector.ofFn fun j => v.extractLsb' (8 * j.val) 8

/-- Word `i` of a byte string, `LE32(b[4i..4i+4))`: the buffer word view (R63) and the lanes of a block (R66, R102). -/
def wordAt {n : Nat} (b : Bytes n) (i : Nat) : Word := le32 (slice b (4 * i) 4)

/-- The byte string with `b[4i..4i+4) <- LEBYTES32(v)` and no other byte changed (R63). -/
def setWordAt {n : Nat} (b : Bytes n) (i : Nat) (v : Word) : Bytes n :=
  Vector.ofFn fun k => if k.val / 4 = i then byteAt (leBytes32 v) (k.val % 4) else byteAt b k.val

/-- `COUNTER_DECODE`, which is `LE32` for this hardware (R9, R67, R101, U7; log 12). -/
def counterDecode (b : Bytes 4) : Word := le32 b

/-- `zext_64` of a 32-bit value (R15, R88). -/
def zext64 (v : Word) : DWord := v.setWidth 64

/-- `n` zero bytes (R16). -/
def zeros (n : Nat) : Bytes n := Vector.replicate n 0

end Sys2Proof.Machine
end

