-- ==== Sys2Proof/Syntax.lean ====
section
/-! DEFINITION. The commands of the engine: one constructor per row of spec/opcode_table.json (R78). Commands have no immediate and no
register-number fields (R77), so no constructor has an argument. -/

namespace Sys2Proof

/-- A command (R78). -/
inductive Instr where
  /-- `A_LOAD_SEED`, word `0x00000001` (R90). -/
  | aLoadSeed
  /-- `A_DERIVE`, word `0x00000002` (R91). -/
  | aDerive
  /-- `A_ADVANCE`, word `0x00000003` (R92). -/
  | aAdvance
  /-- `A_GENERATE`, word `0x00000004` (R93). -/
  | aGenerate
  /-- `B_INIT`, word `0x00000011` (R105). -/
  | bInit
  /-- `B_STEP`, word `0x00000012` (R106). -/
  | bStep
  /-- `B_GENERATE`, word `0x00000013` (R107). -/
  | bGenerate
  deriving DecidableEq, Repr

end Sys2Proof
end

