-- ==== Sys2Proof/Machine/Access.lean ====
section
/-! DEFINITION. What stands in the host window (R56) and what the host does to it: its registers and buffers by name, its accesses, the
reset event (R140), and the lines of a host program (R83, R84). -/

namespace Sys2Proof.Machine

/-- The 32-bit registers of the window by name (R56); `LCG_STATE` is two of them (R37). -/
inductive Reg where
  | cmd | status | count | upperLimit | seedIn | seedOut | result | outCount | lcgStateLo | lcgStateHi
  | bCounter | bBytes | reseedCount | id | capacity
  deriving DecidableEq, Repr

/-- The byte buffers of the window by name (R43 to R48). -/
inductive Buf where
  | akey | aiv | bmat | roll | bkey | bnonce
  deriving DecidableEq, Repr

/-- What stands at an aligned offset inside the window (R56). -/
inductive Location where
  /-- A register. -/
  | reg (r : Reg)
  /-- Word `i` of a buffer, `NAME_W<i>` (R63). -/
  | bufWord (b : Buf) (i : Nat)
  /-- Output word `i` (R64). -/
  | out (i : Nat)
  /-- A reserved offset (R59). -/
  | reserved
  deriving DecidableEq, Repr

/-- What reaches the engine from outside: a host access of `width` bytes at a byte offset (R57, R58), or reset (R140). -/
inductive HostEvent where
  /-- `MemRead(offset, width)`. -/
  | read (offset : Word) (width : Nat)
  /-- `MemWrite(offset, width, value)`. -/
  | write (offset : Word) (width : Nat) (value : Word)
  /-- Reset, applied between two accesses (R140). -/
  | reset
  deriving DecidableEq, Repr

/-- `<REG>` of the host syntax (R83): a register, a buffer word, an output word, or a raw offset `@0x<hex>`. -/
inductive RegRef where
  | reg (r : Reg)
  | bufWord (b : Buf) (i : Nat)
  | out (i : Nat)
  | raw (offset : Word)
  deriving DecidableEq, Repr

/-- One line of a host program: the accesses of R83 and the pseudo-instructions of R84. -/
inductive Line where
  /-- `wr <REG>, <value>` -/
  | wr (r : RegRef) (value : Word)
  /-- `rd <REG>` -/
  | rd (r : RegRef)
  /-- `cmd <MNEMONIC>` -/
  | cmd (i : Instr)
  /-- `wrbuf <BUF>, <hex bytes>` -/
  | wrbuf (b : Buf) (bytes : List Byte)
  /-- `rd64 LCG_STATE` -/
  | rd64
  /-- `wait` -/
  | wait
  /-- `check` -/
  | check
  deriving DecidableEq, Repr

end Sys2Proof.Machine
end

