-- ==== Sys2Proof/Config.lean ====
section
/-! DEFINITION. What an implementation of the engine fixes (R8, R11 to R14, R56) and the free values the spec leaves open (R126,
R127, R140). Each is an opaque constant with no body, so nothing can be proved of its value; `Params` gathers those the meanings
read, so that a meaning takes them as one argument. -/

namespace Sys2Proof

/-- `BLOCK_ENCRYPT_128`, written `E(k, m)` (R11, U5; log 1): key, block, result. -/
opaque Config.blockEncrypt128 : Bytes 16 → Bytes 16 → Bytes 16

/-- `HASH_384`, written `H(m)` (R12, U5; log 1, log 14). The engine applies it to 64-byte inputs only. -/
opaque Config.hash384 : Bytes 64 → Bytes 48

/-- `STREAM_APPLY`, written `S(k, n, c, b)` (R13, U5, U6; log 1): key, nonce, counter, input block. -/
opaque Config.streamApply : Bytes 32 → Bytes 12 → Word → Bytes 64 → Bytes 64

/-- `prim_fail` (R14, U4; log 2): whether the invocation that makes draw number `d` reports failure. -/
opaque Config.primFail : Nat → Bool

/-- The value of the unspecified byte at host window offset `a`, drawn at draw number `d` (R126, R127, R140, U1 to U3; log 3, log 4):
`Config.unspecifiedByte d a`. -/
opaque Config.unspecifiedByte : Nat → Nat → Byte

/-- `OUT_CAPACITY - 1` (R8, U8; log 5). The type is exactly the range of R8: `1 <= OUT_CAPACITY` and
`0x1000 + 4 * OUT_CAPACITY <= 2^32`. -/
opaque Config.capacityIndex : Fin 1073740800

/-- `WINDOW_BASE` (R56, U9; log 16): where a system places the host window. No rule of the spec depends on it, and no definition
reads it. -/
opaque Config.windowBase : Nat

/-- The parameters a command's meaning reads (R8, R11 to R14) and the free values it may draw. -/
structure Params where
  blockEncrypt128 : Bytes 16 → Bytes 16 → Bytes 16
  hash384 : Bytes 64 → Bytes 48
  streamApply : Bytes 32 → Bytes 12 → Word → Bytes 64 → Bytes 64
  primFail : Nat → Bool
  unspecifiedByte : Nat → Nat → Byte
  capacityIndex : Fin 1073740800

/-- `OUT_CAPACITY` (R8). -/
def Params.outCapacity (P : Params) : Nat := P.capacityIndex.val + 1

/-- The parameters of this hardware: every one of them open. -/
def Config.params : Params where
  blockEncrypt128 := Config.blockEncrypt128
  hash384 := Config.hash384
  streamApply := Config.streamApply
  primFail := Config.primFail
  unspecifiedByte := Config.unspecifiedByte
  capacityIndex := Config.capacityIndex

end Sys2Proof
end

