-- ==== Sys2Proof/Machine/Constants.lean ====
section
/-! DEFINITION. The named constants of R6 with this hardware's values (the source's unaudited literals; log 13), and the fixed numbers
of the host window (R41, R55, R64). -/

namespace Sys2Proof.Machine

/-- `LCG_MUL` (R6). -/
def lcgMul : Nat := 1103515245

/-- `LCG_INC` (R6). -/
def lcgInc : Nat := 12345

/-- `EXTRACT_FACTOR` (R6). -/
def extractFactor : Nat := 2

/-- `FALLBACK_SEED` (R6). -/
def fallbackSeed : Word := 1

/-- `BLOCK_BYTES` (R6). -/
def blockBytes : Nat := 64

/-- `BLOCK_WORDS` (R6): `BLOCK_BYTES / 4`. -/
def blockWords : Nat := 16

/-- `RESEED_THRESHOLD` (R6). -/
def reseedThreshold : Nat := 512

/-- `OUT_BASE` (R17, R64). -/
def outBase : Nat := 0x1000

/-- The value of the identification register `ID` (R2, R41). -/
def idValue : Word := 0x53430001

/-- The first byte offset above the host window (R55). -/
def windowEnd (P : Params) : Nat := outBase + 4 * P.outCapacity

/-- The host offset of output word `i` (R64). -/
def outAddr (i : Nat) : Nat := outBase + 4 * i

end Sys2Proof.Machine
end

