-- ==== Sys2Proof/WellFormed.lean ====
section
/-! DEFINITION. The checks of the spec on what is written down: the fields of a command word (R76), the host's duties on an access (R57,
R146), and the length of a `wrbuf` byte string (R84). -/

namespace Sys2Proof

/-- Field `RSV`, bits 31:8, is 0 (R76). -/
def CommandWord.rsvClear (w : Word) : Bool := w.extractLsb' 8 24 == 0

/-- Field `OPX`, bits 7:5, is 0 (R76). -/
def CommandWord.opxClear (w : Word) : Bool := w.extractLsb' 5 3 == 0

/-- Field `FUNC`, bits 3:0, is an operation of the mode of bit 4 (R76, R78): 1 to 4 in Mode A, 1 to 3 in Mode B. -/
def CommandWord.funcAssigned (w : Word) : Bool :=
  let func := (w.extractLsb' 0 4).toNat
  if w.extractLsb' 4 1 == 0 then 1 ≤ func && func ≤ 4 else 1 ≤ func && func ≤ 3

/-- A legal command word (R76, R78). -/
def CommandWord.wf (w : Word) : Bool := CommandWord.rsvClear w && CommandWord.opxClear w && CommandWord.funcAssigned w

/-- A command as written down: no constructor has an operand (R77), so there is nothing to check. -/
def Instr.wf : Instr → Bool
  | .aLoadSeed => true
  | .aDerive => true
  | .aAdvance => true
  | .aGenerate => true
  | .bInit => true
  | .bStep => true
  | .bGenerate => true

namespace Machine

/-- The host's duties on one access: width 4 (R57, R58). -/
def HostEvent.widthOk : HostEvent → Bool
  | .read _ width => width == 4
  | .write _ width _ => width == 4
  | .reset => true

/-- The host's duties on one access: an offset that is a multiple of 4 (R57, R58). -/
def HostEvent.aligned : HostEvent → Bool
  | .read offset _ => offset.toNat % 4 == 0
  | .write offset _ _ => offset.toNat % 4 == 0
  | .reset => true

/-- The host's duties on one access: an offset inside the window (R55, R58). -/
def HostEvent.inWindow (P : Params) : HostEvent → Bool
  | .read offset _ => decide (offset.toNat < windowEnd P)
  | .write offset _ _ => decide (offset.toNat < windowEnd P)
  | .reset => true

/-- An event that keeps the host's duties of R146 (the second one, on `BUSY`, is about the state). -/
def HostEvent.wf (P : Params) (e : HostEvent) : Bool := e.widthOk && e.aligned && e.inWindow P

/-- The size of a buffer in bytes (R43 to R48). -/
def Buf.size : Buf → Nat
  | .akey => 32
  | .aiv => 16
  | .bmat => 64
  | .roll => 64
  | .bkey => 32
  | .bnonce => 12

/-- A register reference names something of the window: a buffer word inside its buffer, an output word inside `OUT` (R56, R83). -/
def RegRef.wf (P : Params) : RegRef → Bool
  | .reg _ => true
  | .bufWord b i => decide (4 * i < b.size)
  | .out i => decide (i < P.outCapacity)
  | .raw offset => offset.toNat % 4 == 0 && decide (offset.toNat < windowEnd P)

/-- A line of a host program (R83); the byte string of `wrbuf` has the buffer's exact length (R84). -/
def Line.wf (P : Params) : Line → Bool
  | .wr r _ => r.wf P
  | .rd r => r.wf P
  | .cmd i => i.wf
  | .wrbuf b bytes => bytes.length == b.size
  | .rd64 => true
  | .wait => true
  | .check => true

end Machine

end Sys2Proof
end

