-- ==== Sys2Proof/Decode.lean ====
section
/-! DEFINITION. The decoder of the command word (R76, R78, R79, R80), total on every word and on any bytes, and the encoder after it,
written from the field table of R76 and the opcode map of R78. -/

namespace Sys2Proof

/-- Why a word or a byte string is no command. -/
inductive DecodeError where
  /-- Bits 31:8 are not 0 (R79, R80). -/
  | reservedBits
  /-- The opcode `W[7:0]` is not in R78 (R80). -/
  | unassignedOpcode
  /-- Fewer than 4 bytes: no whole command word (R75). -/
  | truncated
  deriving DecidableEq, Repr

/-- The opcode map of R78, on the number of `OPC = W[7:0]`. -/
def decodeOpcode (opc : Nat) : Except DecodeError Instr :=
  match opc with
  | 0x01 => .ok .aLoadSeed
  | 0x02 => .ok .aDerive
  | 0x03 => .ok .aAdvance
  | 0x04 => .ok .aGenerate
  | 0x11 => .ok .bInit
  | 0x12 => .ok .bStep
  | 0x13 => .ok .bGenerate
  | _ => .error .unassignedOpcode

/-- Decoding a command word (R79). -/
def decodeWord (w : Word) : Except DecodeError Instr :=
  if w.extractLsb' 8 24 ≠ 0 then .error .reservedBits else decodeOpcode (w.extractLsb' 0 8).toNat

/-- Decoding a byte string: the word of its first 4 bytes, little-endian (R62), and the bytes after it. -/
def decode : List Byte → Except DecodeError (Instr × List Byte)
  | b0 :: b1 :: b2 :: b3 :: rest =>
    match decodeWord (Machine.le32 #v[b0, b1, b2, b3]) with
    | .ok i => .ok (i, rest)
    | .error e => .error e
  | _ => .error .truncated

/-- Field `MODE`, bit 4: 0 for Mode A, 1 for Mode B (R76, R81). -/
def Instr.modeBit : Instr → BitVec 1
  | .aLoadSeed | .aDerive | .aAdvance | .aGenerate => 0
  | .bInit | .bStep | .bGenerate => 1

/-- Field `FUNC`, bits 3:0 (R76, R78). -/
def Instr.func : Instr → BitVec 4
  | .aLoadSeed => 1
  | .aDerive => 2
  | .aAdvance => 3
  | .aGenerate => 4
  | .bInit => 1
  | .bStep => 2
  | .bGenerate => 3

/-- The word of a command: `RSV = 0`, `OPX = 0`, `MODE`, `FUNC` (R76). -/
def encode (i : Instr) : Word := (0 : BitVec 24) ++ (0 : BitVec 3) ++ i.modeBit ++ i.func

/-- The 4 bytes of a command's word, least significant first (R62). -/
def encodeBytes (i : Instr) : List Byte := (Machine.leBytes32 (encode i)).toList

/-- The command the decoder reads from a word whose low `nbits` bits are those of `w` and whose other bits are 0, laid out as 4 bytes. -/
def decodeTableWord (nbits w : Nat) : Option Instr :=
  match decode (Machine.leBytes32 (BitVec.ofNat 32 (w % 2 ^ nbits))).toList with
  | .ok (i, _) => some i
  | .error _ => none

end Sys2Proof
end

