-- ==== Sys2Proof/Machine/State.lean ====
section
/-! DEFINITION. The state of the machine as plain data (R19), the ways a step can stop, and the machine right after reset (R53, R140).
`CMD`, `ID` and `CAPACITY` hold nothing (R22, R41, R42) and have no field: the read of the window gives their values. -/

namespace Sys2Proof.Machine

/-- `STATUS.ERRCODE` by name (R30, R117). Codes 6 to 15 are never written (R117, U16). -/
inductive ErrorCode where
  /-- 0: the command completed. -/
  | none
  /-- 1 (R118). -/
  | illegalCommand
  /-- 2 (R119). -/
  | sequenceError
  /-- 3 (R120). -/
  | invalidArgument
  /-- 4 (R121). -/
  | hashFailure
  /-- 5 (R122). -/
  | cipherFailure
  deriving DecidableEq, Repr

/-- The fields of `STATUS` (R23 to R30). Its reserved bits hold nothing (R23, U15; log 9). -/
structure Status where
  /-- `BUSY`, bit 0 (R24). -/
  busy : Bool
  /-- `ERR`, bit 1 (R25). -/
  err : Bool
  /-- `ERR_STICKY`, bit 2 (R26). -/
  errSticky : Bool
  /-- `FALLBACK`, bit 3 (R27). -/
  fallback : Bool
  /-- `A_SEEDED`, bit 4 (R28). -/
  aSeeded : Bool
  /-- `B_READY`, bit 5 (R29). -/
  bReady : Bool
  /-- `ERRCODE`, bits 11:8 (R30). -/
  errcode : ErrorCode
  deriving DecidableEq, Repr

/-- The written bytes of the output memory by host offset. An offset not listed holds no written byte; what it reads as is the free
byte of `State.outByte` (log 4). -/
abbrev Memory := List Host.Cell

/-- The state of the engine (R19), the host's side of it (R83, R153), and the model's own fields for the draws of R14, R126, R127 and
R140. -/
structure State where
  /-- `STATUS` (R23). -/
  status : Status
  /-- `COUNT` (R31). -/
  count : Word
  /-- `UPPER_LIMIT` (R32). -/
  upperLimit : Word
  /-- `SEED_IN` (R33). -/
  seedIn : Word
  /-- `SEED_OUT` (R34). -/
  seedOut : Word
  /-- `RESULT` (R35). -/
  result : Word
  /-- `OUT_COUNT` (R36). -/
  outCount : Word
  /-- `LCG_STATE` (R37). -/
  lcgState : DWord
  /-- `B_COUNTER` (R38). -/
  bCounter : Word
  /-- `B_BYTES` (R39). -/
  bBytes : Word
  /-- `RESEED_COUNT` (R40). -/
  reseedCount : Word
  /-- `AKEY` (R43). -/
  akey : Bytes 32
  /-- `AIV` (R44). -/
  aiv : Bytes 16
  /-- `BMAT` (R45). -/
  bmat : Bytes 64
  /-- `ROLL` (R46). -/
  roll : Bytes 64
  /-- `BKEY` (R47). -/
  bkey : Bytes 32
  /-- `BNONCE` (R48). -/
  bnonce : Bytes 12
  /-- `OUT` (R49): its written bytes. -/
  out : Memory
  /-- The model's own (log 4): the draw that gave `OUT` its unspecified contents at the last reset (R140). -/
  outDraw : Nat
  /-- The model's own (log 2): the draws of `prim_fail` (R14) that the environment has already fixed, next first. -/
  primDraws : List Bool
  /-- The model's own (log 2, log 3): how many draws have been made; the number of the next one. -/
  draws : Nat
  /-- The host's accesses not performed yet (R21, R83; log 6), next first. -/
  pending : List HostEvent
  /-- The values the host's reads returned (R83, R153; log 6), oldest first. -/
  reads : List Word
  deriving DecidableEq, Repr

/-- The faults of the machine: none. No access faults (R68), and an error of a command is recorded in `STATUS` and stops nothing (R116,
R129), so there is no constructor and no step ends in a fault. -/
inductive Fault where
  deriving DecidableEq, Repr

/-- Why a step is refused. Every constructor but the first is a breach of a host duty, which the spec says a model refuses (R58, R146;
log 7). -/
inductive Refusal where
  /-- Raised by an arm of `exec` whose instruction has no meaning yet; no arm does. Safe. -/
  | notModelled (mnemonic : String)
  /-- Raised by a host access of a width other than 4 bytes (R58). Safe. -/
  | accessWidth
  /-- Raised by a host access at an offset that is not a multiple of 4 (R58). Safe. -/
  | misalignedAccess
  /-- Raised by a host access outside the window (R58). Safe. -/
  | outsideWindow
  /-- Raised by a host access while `BUSY = 1` (R146, U12), which no run reaches (R24). Safe. -/
  | accessWhileBusy
  deriving DecidableEq, Repr

/-- How a part of a Mode B command ends: with a state, or at the first failing primitive invocation (R128), with that failure's code and
the state it left. -/
inductive Progress where
  | done (s : State)
  | failed (c : ErrorCode) (s : State)
  deriving DecidableEq, Repr

/-- What the Mode A seed derivation gives (R89): the seed, the fallback flag, and the state after its draws. -/
structure SeedDerivation where
  seed : Word
  fallback : Bool
  after : State
  deriving DecidableEq, Repr

/-- The states of the Mode B state machine (R50). -/
inductive StreamPhase where
  | uninitialised | active | reseeding
  deriving DecidableEq, Repr

/-- `STATUS` after reset: every field 0 (R53). -/
def Status.reset : Status where
  busy := false
  err := false
  errSticky := false
  fallback := false
  aSeeded := false
  bReady := false
  errcode := .none

/-- The machine right after reset (R53, R140): every register 0, every buffer zero bytes, `OUT` unspecified (nothing listed). The last
five fields are the model's own and the host's (log 2, log 3, log 4, log 6). -/
def State.reset : State where
  status := Status.reset
  count := 0
  upperLimit := 0
  seedIn := 0
  seedOut := 0
  result := 0
  outCount := 0
  lcgState := 0
  bCounter := 0
  bBytes := 0
  reseedCount := 0
  akey := Vector.replicate 32 0
  aiv := Vector.replicate 16 0
  bmat := Vector.replicate 64 0
  roll := Vector.replicate 64 0
  bkey := Vector.replicate 32 0
  bnonce := Vector.replicate 12 0
  out := []
  outDraw := 0
  primDraws := []
  draws := 1
  pending := []
  reads := []

end Sys2Proof.Machine
end

