-- ==== Sys2Proof/Machine/Flags.lean ====
section
/-! DEFINITION. `STATUS`: the codes of its `ERRCODE` field (R117), the word the host reads (R23), and who writes which flag (R52). -/

namespace Sys2Proof.Machine

/-- The 4 bits of `ERRCODE` (R30, R117). -/
def ErrorCode.bits : ErrorCode → BitVec 4
  | .none => 0
  | .illegalCommand => 1
  | .sequenceError => 2
  | .invalidArgument => 3
  | .hashFailure => 4
  | .cipherFailure => 5

/-- The word a host read of `STATUS` returns (R23): bits 31:12 and 7:6 read 0. -/
def Status.word (st : Status) : Word :=
  (0 : BitVec 20) ++ st.errcode.bits ++ (0 : BitVec 2) ++ BitVec.ofBool st.bReady ++ BitVec.ofBool st.aSeeded ++
    BitVec.ofBool st.fallback ++ BitVec.ofBool st.errSticky ++ BitVec.ofBool st.err ++ BitVec.ofBool st.busy

/-- The prologue's writes: `ERR <- 0`, `ERRCODE <- 0` (R25, R79). -/
def Status.begun (st : Status) : Status := { st with err := false, errcode := .none }

/-- The writes of `raise X()`: `ERR <- 1`, `ERRCODE <- code(X)`, `ERR_STICKY <- 1` (R124). -/
def Status.raised (c : ErrorCode) (st : Status) : Status := { st with err := true, errcode := c, errSticky := true }

/-- The writes of a command that seeds Mode A: `FALLBACK <- fb`, `A_SEEDED <- 1` (R27, R28). -/
def Status.seeded (fb : Bool) (st : Status) : Status := { st with fallback := fb, aSeeded := true }

/-- `B_READY <- b` (R29). -/
def Status.withReady (b : Bool) (st : Status) : Status := { st with bReady := b }

end Sys2Proof.Machine
end

