-- ==== Sys2Proof/Machine/Ops.lean ====
section
/-! DEFINITION. The named operations over the output memory and the registers that the commands share: byte reads and writes of `OUT`
(R64, R65), the draws (R14), starting a command (R79), recording an error (R124), the state a primitive failure leaves (R126, R127), and
reset (R140). -/

namespace Sys2Proof.Machine

/-- The written byte at an offset, if any. -/
def Memory.read? : Memory → Nat → Option Byte
  | [], _ => none
  | (a, b) :: m, x => if x = a then some b else Memory.read? m x

/-- Writes one byte, keeping the list in its canonical form. -/
def Memory.write : Memory → Nat → Byte → Memory
  | [], x, v => [(x, v)]
  | (a, b) :: m, x, v =>
    if x < a then (x, v) :: (a, b) :: m else if x = a then (x, v) :: m else (a, b) :: Memory.write m x v

/-- The canonical form of the output memory: offsets strictly rising. An offset not listed holds no written byte, so no entry can equal
what an unlisted one holds (log 4). -/
abbrev Memory.wf (m : Memory) : Prop := m.Pairwise fun p q => p.1 < q.1

/-- Every written byte lies inside `OUT` (R65). -/
abbrev Memory.inOut (P : Params) (m : Memory) : Prop := ∀ c ∈ m, outBase ≤ c.1 ∧ c.1 < windowEnd P

/-- Writes the 4 bytes of a word, little-endian (R62). -/
def Memory.writeWord (m : Memory) (a : Nat) (v : Word) : Memory :=
  Memory.write (Memory.write (Memory.write (Memory.write m a (byteAt (leBytes32 v) 0)) (a + 1) (byteAt (leBytes32 v) 1))
    (a + 2) (byteAt (leBytes32 v) 2)) (a + 3) (byteAt (leBytes32 v) 3)

/-- What the byte of `OUT` at host offset `a` reads as: the byte written there, else the unspecified byte that the last reset drew for
it (R49, R140; log 4). -/
def State.outByte (P : Params) (s : State) (a : Nat) : Byte := (Memory.read? s.out a).getD (P.unspecifiedByte s.outDraw a)

/-- `OUT[i]` (R49, R64). -/
def State.outWord (P : Params) (s : State) (i : Nat) : Word := le32 (Vector.ofFn fun j : Fin 4 => s.outByte P (outAddr i + j.val))

/-- The state with these written bytes of `OUT`. -/
def State.setOut (m : Memory) (s : State) : State := { s with out := m }

/-- `MemWrite(OUT_BASE + 4*i, 4, v)` (R65). -/
def State.writeOut (i : Nat) (v : Word) (s : State) : State := s.setOut (Memory.writeWord s.out (outAddr i) v)

/-- The draw of `prim_fail` for the next invocation (R14; log 2): the one the environment has fixed, else a free value. -/
def State.nextFails (P : Params) (s : State) : Bool :=
  match s.primDraws with
  | [] => P.primFail s.draws
  | b :: _ => b

/-- The state after one draw. -/
def State.drawn (s : State) : State := { s with primDraws := s.primDraws.tail, draws := s.draws + 1 }

/-- One invocation of a primitive whose value is `r`: `none` where the draw says that it reports failure (R14). -/
def invoke {α : Type} (P : Params) (r : α) (s : State) : Option α × State := (if s.nextFails P then none else some r, s.drawn)

/-- The prologue of every command (R79). -/
def State.beginCommand (s : State) : State := { s with status := s.status.begun }

/-- `raise X()`: records an error (R124). The command ends there; nothing else changes (R125). -/
def State.raise (c : ErrorCode) (s : State) : State := { s with status := s.status.raised c }

/-- A `CMD` word that is no command: the prologue, then `ILLEGAL_COMMAND` (R79, R80, R118). -/
def State.illegalCommand (s : State) : State := s.beginCommand.raise .illegalCommand

/-- `OUT_COUNT <- v` (R36). -/
def State.setOutCount (v : Word) (s : State) : State := { s with outCount := v }

/-- The writes of a command that seeds Mode A: `LCG_STATE`, `SEED_OUT`, `FALLBACK`, `A_SEEDED` (R27, R28, R34, R37). -/
def State.seeded (lcg : DWord) (seed : Word) (fb : Bool) (s : State) : State :=
  { s with lcgState := lcg, seedOut := seed, status := s.status.seeded fb }

/-- `B_READY <- b` (R29). -/
def State.setReady (b : Bool) (s : State) : State := { s with status := s.status.withReady b }

/-- `OUT[i] <- ` an unspecified value of draw `d`, for `i < n` (R127; log 3). -/
def scrambleOut (P : Params) (d : Nat) : Nat → State → State
  | 0, s => s
  | n + 1, s =>
    (scrambleOut P d n s).writeOut n (le32 (Vector.ofFn fun j : Fin 4 => P.unspecifiedByte d (outAddr n + j.val)))

/-- A word of unspecified bytes at host offset `a`, of draw `d` (R126; log 3). -/
def unspecifiedWord (P : Params) (d a : Nat) : Word := le32 (Vector.ofFn fun j : Fin 4 => P.unspecifiedByte d (a + j.val))

/-- `n` unspecified bytes at host offset `a`, of draw `d` (R126; log 3). -/
def unspecifiedBytes (P : Params) (d a n : Nat) : Bytes n := Vector.ofFn fun k => P.unspecifiedByte d (a + k.val)

/-- The Mode B registers after a primitive failure: each any value of its width (R126, U1; log 3). The free byte of a register is the
one of its host offset (R56). -/
def State.scrambleStream (P : Params) (s : State) : State :=
  { s with
    roll := unspecifiedBytes P s.draws 0x0C0 64
    bkey := unspecifiedBytes P s.draws 0x100 32
    bnonce := unspecifiedBytes P s.draws 0x120 12
    bCounter := unspecifiedWord P s.draws 0x028
    bBytes := unspecifiedWord P s.draws 0x02C
    reseedCount := unspecifiedWord P s.draws 0x030 }

/-- The end of a command whose primitive invocation failed with code `c` (R124, R126, R127): the error is recorded, `B_READY <- 0`, the
Mode B registers and `OUT[0..n)` are unspecified. `n` is `COUNT` for `B_GENERATE` and 0 for the other commands. -/
def State.primitiveFailure (P : Params) (c : ErrorCode) (n : Nat) (s : State) : State :=
  { scrambleOut P s.draws n ((s.raise c).setReady false |>.scrambleStream P) with draws := s.draws + 1 }

/-- The next part of a command, run only where the part before it did not fail (R128). -/
def Progress.andThen (p : Progress) (f : State → Progress) : Progress :=
  match p with
  | .done s => f s
  | .failed c s => .failed c s

/-- The state a Mode B command ends in; `n` as in `State.primitiveFailure`. -/
def Progress.finish (P : Params) (n : Nat) (p : Progress) : State :=
  match p with
  | .done s => s
  | .failed c s => s.primitiveFailure P c n

/-- Reset (R140): every register, flag and buffer at its reset value, `OUT` unspecified anew. The host's list and the environment's
draws are not the engine's and go on (log 8). -/
def State.applyReset (s : State) : State :=
  { State.reset with
    outDraw := s.draws, draws := s.draws + 1, primDraws := s.primDraws, pending := s.pending, reads := s.reads }

/-- The value of a performed read (R83, R153). -/
def State.recordRead (v : Word) (s : State) : State := { s with reads := s.reads ++ [v] }

/-- The state of the Mode B state machine between commands (R50): Reseeding stands only inside a command. -/
def State.streamPhase (s : State) : StreamPhase := if s.status.bReady then .active else .uninitialised

end Sys2Proof.Machine
end

