-- ==== Sys2Proof/Machine/ModeA.lean ====
section
/-! DEFINITION. Mode A (40_mode_a.md): the LCG, the bounded extraction, the seed derivation, and the meanings of `A_LOAD_SEED`,
`A_DERIVE`, `A_ADVANCE` and `A_GENERATE`. -/

namespace Sys2Proof.Machine

/-- `lcg_next(s) = (s * LCG_MUL + LCG_INC) mod 2^64`, on unbounded integers and then reduced (R86). -/
def lcgNext (s : DWord) : DWord := BitVec.ofNat 64 (s.toNat * lcgMul + lcgInc)

/-- `extract(s, ul)`: bits 31:0 of `(s div d) mod ul` with `d = ul * EXTRACT_FACTOR` exact (R87). No command extracts with `ul = 0`
(R94; log 18). -/
def extract (s : DWord) (ul : Word) : Word := BitVec.ofNat 32 ((s.toNat / (ul.toNat * extractFactor)) % ul.toNat)

/-- The seed of a final message block: the XOR of its four little-endian words (R89). -/
def foldSeed (m : Bytes 16) : Word := wordAt m 0 ^^^ wordAt m 1 ^^^ wordAt m 2 ^^^ wordAt m 3

/-- The end of a derivation whose block cipher failed: the fallback seed (R89, R123). -/
def fallBack (s : State) : SeedDerivation := { seed := fallbackSeed, fallback := true, after := s }

/-- `derive_seed(AKEY, AIV)` (R89): two passes of `E`, the second skipped if the first fails. -/
def deriveSeed (P : Params) (s : State) : SeedDerivation :=
  match invoke P (P.blockEncrypt128 s.aiv (slice s.akey 0 16)) s with
  | (none, s1) => fallBack s1
  | (some m1, s1) =>
    match invoke P (P.blockEncrypt128 (slice s.akey 16 16) m1) s1 with
    | (none, s2) => fallBack s2
    | (some m2, s2) => { seed := foldSeed m2, fallback := false, after := s2 }

/-- `k` draws into `OUT[i], OUT[i+1], ...`, starting from LCG state `l`: the final LCG state and the state of the machine (R93). -/
def drawWords (ul : Word) : (k i : Nat) → DWord → State → DWord × State
  | 0, _, l, s => (l, s)
  | k + 1, i, l, s => drawWords ul k (i + 1) (lcgNext l) (s.writeOut i (extract (lcgNext l) ul))

/-- `A_LOAD_SEED` (R90). -/
def aLoadSeed (s : State) : State := s.beginCommand.seeded (zext64 s.seedIn) s.seedIn false

/-- `A_DERIVE` (R91). -/
def aDerive (P : Params) (s : State) : State :=
  let d := deriveSeed P s.beginCommand
  d.after.seeded (zext64 d.seed) d.seed d.fallback

/-- `A_ADVANCE` (R92). -/
def aAdvance (s : State) : State :=
  if s.status.aSeeded = false then s.beginCommand.raise .sequenceError
  else if s.upperLimit = 0 then s.beginCommand.raise .invalidArgument
  else { s.beginCommand with lcgState := lcgNext s.lcgState, result := extract (lcgNext s.lcgState) s.upperLimit }

/-- `A_GENERATE` (R93). -/
def aGenerate (P : Params) (s : State) : State :=
  let s0 := s.beginCommand.setOutCount 0
  if s.count = 0 ∨ s.upperLimit = 0 ∨ P.outCapacity < s.count.toNat then s0.raise .invalidArgument
  else
    let d := deriveSeed P s0
    let r := drawWords s.upperLimit s.count.toNat 0 (zext64 d.seed) d.after
    (r.2.seeded r.1 d.seed d.fallback).setOutCount s.count

/-- The meaning of `A_LOAD_SEED` (R90). -/
def execALoadSeed (s : State) : Host.Outcome State Fault Refusal := .next (aLoadSeed s)

/-- The meaning of `A_DERIVE` (R91). -/
def execADerive (s : State) : Host.Outcome State Fault Refusal := .next (aDerive Config.params s)

/-- The meaning of `A_ADVANCE` (R92). -/
def execAAdvance (s : State) : Host.Outcome State Fault Refusal := .next (aAdvance s)

/-- The meaning of `A_GENERATE` (R93). -/
def execAGenerate (s : State) : Host.Outcome State Fault Refusal := .next (aGenerate Config.params s)

end Sys2Proof.Machine
end

