-- ==== Sys2Proof/Machine/ModeB.lean ====
section
/-! DEFINITION. Mode B (41_mode_b.md): the reseed derivation, the application of the stream cipher, the reseed check, and the meanings of
`B_INIT`, `B_STEP` and `B_GENERATE`. -/

namespace Sys2Proof.Machine

/-- The stream key of a digest: bytes 0..32 (R100). -/
def digestKey (d : Bytes 48) : Bytes 32 := slice d 0 32

/-- The nonce of a digest: bytes 32..44 (R100). -/
def digestNonce (d : Bytes 48) : Bytes 12 := slice d 32 12

/-- The counter of a digest: `COUNTER_DECODE` of bytes 44..48 (R100, R101). -/
def digestCounter (d : Bytes 48) : Word := counterDecode (slice d 44 4)

/-- `(BKEY, BNONCE, B_COUNTER) <- derive_stream's result` and `B_BYTES <- 0` (R104, R105). -/
def State.rekey (d : Bytes 48) (s : State) : State :=
  { s with bkey := digestKey d, bnonce := digestNonce d, bCounter := digestCounter d, bBytes := 0 }

/-- `derive_stream(m)` (R100): the digest of the material, or `HASH_FAILURE` (R121). -/
def deriveStream (P : Params) (m : Bytes 64) (s : State) (k : Bytes 48 → State → Progress) : Progress :=
  match invoke P (P.hash384 m) s with
  | (none, s1) => .failed .hashFailure s1
  | (some d, s1) => k d s1

/-- `b_init()` (R105). -/
def initStream (P : Params) (s : State) : Progress :=
  deriveStream P s.bmat { s with roll := s.bmat } fun d s1 => .done ({ s1.rekey d with reseedCount := 0 }.setReady true)

/-- `b_apply()` (R103): one application of `S` to the rolling buffer, or `CIPHER_FAILURE` (R122). -/
def applyStream (P : Params) (s : State) : Progress :=
  match invoke P (P.streamApply s.bkey s.bnonce s.bCounter s.roll) s with
  | (none, s1) => .failed .cipherFailure s1
  | (some r, s1) =>
    .done { s1 with roll := r, bCounter := s1.bCounter + 1, bBytes := s1.bBytes + BitVec.ofNat 32 blockBytes }

/-- `b_reseed_if_due()` (R104). -/
def reseedIfDue (P : Params) (s : State) : Progress :=
  if reseedThreshold < s.bBytes.toNat then
    deriveStream P s.roll s fun d s1 => .done { s1.rekey d with reseedCount := s1.reseedCount + 1 }
  else .done s

/-- `OUT[w+j] <- word(ROLL, j)` for `j < k`, in increasing order (R107, R102). -/
def copyLanes (w : Nat) : Nat → State → State
  | 0, s => s
  | k + 1, s => (copyLanes w k s).writeOut (w + k) (wordAt s.roll k)

/-- One iteration of `B_GENERATE` for `n` words with `w` of them written (R107): the application, the copy of up to 16 words, the reseed
check. -/
def generateIteration (P : Params) (n w : Nat) (s : State) : Progress :=
  (applyStream P s).andThen fun s1 => reseedIfDue P (copyLanes w (min blockWords (n - w)) s1)

/-- The loop of `B_GENERATE` for `n` words with `w` of them written (R107, R108); `fuel` bounds the iterations, and `n - w` of it is
enough, because each iteration writes at least one word. -/
def generateLoop (P : Params) (n : Nat) : (fuel w : Nat) → State → Progress
  | 0, _, s => .done s
  | fuel + 1, w, s =>
    if w < n then
      (generateIteration P n w s).andThen fun s1 => generateLoop P n fuel (w + min blockWords (n - w)) s1
    else .done s

/-- `B_INIT` (R105). -/
def bInit (P : Params) (s : State) : State := (initStream P s.beginCommand).finish P 0

/-- `B_STEP` (R106). -/
def bStep (P : Params) (s : State) : State :=
  if s.status.bReady = false then s.beginCommand.raise .sequenceError
  else
    (((applyStream P s.beginCommand).andThen (reseedIfDue P)).andThen fun s1 => .done (s1.setReady true)).finish P 0

/-- `B_GENERATE` (R107). -/
def bGenerate (P : Params) (s : State) : State :=
  let s0 := s.beginCommand.setOutCount 0
  if s.count = 0 ∨ P.outCapacity < s.count.toNat then s0.raise .invalidArgument
  else
    (((initStream P s0).andThen (generateLoop P s.count.toNat s.count.toNat 0)).andThen fun s1 =>
      .done (s1.setOutCount s.count)).finish P s.count.toNat

/-- The meaning of `B_INIT` (R105). -/
def execBInit (s : State) : Host.Outcome State Fault Refusal := .next (bInit Config.params s)

/-- The meaning of `B_STEP` (R106). -/
def execBStep (s : State) : Host.Outcome State Fault Refusal := .next (bStep Config.params s)

/-- The meaning of `B_GENERATE` (R107). -/
def execBGenerate (s : State) : Host.Outcome State Fault Refusal := .next (bGenerate Config.params s)

end Sys2Proof.Machine
end

