-- ==== Sys2Proof/Machine/Dispatch.lean ====
section
/-! DEFINITION. The dispatch of a decoded command to its meaning (R79). -/

namespace Sys2Proof.Machine

def exec (i : Instr) (s : State) : Host.Outcome State Fault Refusal :=
  match i with
  | .aLoadSeed => Sys2Proof.Machine.execALoadSeed s
  | .aDerive => Sys2Proof.Machine.execADerive s
  | .aAdvance => Sys2Proof.Machine.execAAdvance s
  | .aGenerate => Sys2Proof.Machine.execAGenerate s
  | .bInit => Sys2Proof.Machine.execBInit s
  | .bStep => Sys2Proof.Machine.execBStep s
  | .bGenerate => Sys2Proof.Machine.execBGenerate s

end Sys2Proof.Machine
end

