-- ==== Sys2Proof/Machine/Window.lean ====
section
/-! DEFINITION. The host window: its map (R56), what a read returns and what a write stores (R57 to R64), and the accesses that are refused
(R58, R146). -/

namespace Sys2Proof.Machine

/-- The offset of a register (R56). -/
def Reg.offset : Reg → Nat
  | .cmd => 0x000
  | .status => 0x004
  | .count => 0x008
  | .upperLimit => 0x00C
  | .seedIn => 0x010
  | .seedOut => 0x014
  | .result => 0x018
  | .outCount => 0x01C
  | .lcgStateLo => 0x020
  | .lcgStateHi => 0x024
  | .bCounter => 0x028
  | .bBytes => 0x02C
  | .reseedCount => 0x030
  | .id => 0x034
  | .capacity => 0x038

/-- The base offset of a buffer (R43 to R48). -/
def Buf.base : Buf → Nat
  | .akey => 0x040
  | .aiv => 0x060
  | .bmat => 0x080
  | .roll => 0x0C0
  | .bkey => 0x100
  | .bnonce => 0x120

/-- The word of buffer `b` at offset `a`. -/
def Buf.wordAtOffset (b : Buf) (a : Nat) : Location := .bufWord b ((a - b.base) / 4)

/-- What stands at an aligned offset (R56). -/
def locate (a : Nat) : Location :=
  if outBase ≤ a then .out ((a - outBase) / 4)
  else if a < 0x040 then
    match a with
    | 0x000 => .reg .cmd
    | 0x004 => .reg .status
    | 0x008 => .reg .count
    | 0x00C => .reg .upperLimit
    | 0x010 => .reg .seedIn
    | 0x014 => .reg .seedOut
    | 0x018 => .reg .result
    | 0x01C => .reg .outCount
    | 0x020 => .reg .lcgStateLo
    | 0x024 => .reg .lcgStateHi
    | 0x028 => .reg .bCounter
    | 0x02C => .reg .bBytes
    | 0x030 => .reg .reseedCount
    | 0x034 => .reg .id
    | 0x038 => .reg .capacity
    | _ => .reserved
  else if a < 0x060 then Buf.wordAtOffset .akey a
  else if a < 0x070 then Buf.wordAtOffset .aiv a
  else if a < 0x080 then .reserved
  else if a < 0x0C0 then Buf.wordAtOffset .bmat a
  else if a < 0x100 then Buf.wordAtOffset .roll a
  else if a < 0x120 then Buf.wordAtOffset .bkey a
  else if a < 0x12C then Buf.wordAtOffset .bnonce a
  else .reserved

/-- What a host read of a register returns: `CMD` reads 0 (R22), `ID` and `CAPACITY` are hardwired (R41, R42). -/
def State.readReg (P : Params) (s : State) : Reg → Word
  | .cmd => 0
  | .status => s.status.word
  | .count => s.count
  | .upperLimit => s.upperLimit
  | .seedIn => s.seedIn
  | .seedOut => s.seedOut
  | .result => s.result
  | .outCount => s.outCount
  | .lcgStateLo => s.lcgState.extractLsb' 0 32
  | .lcgStateHi => s.lcgState.extractLsb' 32 32
  | .bCounter => s.bCounter
  | .bBytes => s.bBytes
  | .reseedCount => s.reseedCount
  | .id => idValue
  | .capacity => BitVec.ofNat 32 P.outCapacity

/-- Word `i` of a buffer (R63). -/
def State.readBuf (s : State) (b : Buf) (i : Nat) : Word :=
  match b with
  | .akey => wordAt s.akey i
  | .aiv => wordAt s.aiv i
  | .bmat => wordAt s.bmat i
  | .roll => wordAt s.roll i
  | .bkey => wordAt s.bkey i
  | .bnonce => wordAt s.bnonce i

/-- `MemRead(a, 4)` (R57, R59, R60, R64). -/
def State.readAt (P : Params) (s : State) (a : Nat) : Word :=
  match locate a with
  | .reg r => s.readReg P r
  | .bufWord b i => s.readBuf b i
  | .out i => s.outWord P i
  | .reserved => 0

/-- `MemWrite(a, 4, v)` at any offset but that of `CMD`: the RW registers and buffers take the value, every other write is ignored (R59,
R60, R61). -/
def State.writeAt (a : Nat) (v : Word) (s : State) : State :=
  match locate a with
  | .reg .count => { s with count := v }
  | .reg .upperLimit => { s with upperLimit := v }
  | .reg .seedIn => { s with seedIn := v }
  | .bufWord .akey i => { s with akey := setWordAt s.akey i v }
  | .bufWord .aiv i => { s with aiv := setWordAt s.aiv i v }
  | .bufWord .bmat i => { s with bmat := setWordAt s.bmat i v }
  | .reg .cmd | .reg .status | .reg .seedOut | .reg .result | .reg .outCount | .reg .lcgStateLo | .reg .lcgStateHi | .reg .bCounter
  | .reg .bBytes | .reg .reseedCount | .reg .id | .reg .capacity => s
  | .bufWord .roll _ | .bufWord .bkey _ | .bufWord .bnonce _ => s
  | .out _ => s
  | .reserved => s

/-- Why an access of `width` bytes at offset `a` is refused, if it is (R58, R146). -/
def accessRefusal (P : Params) (s : State) (a width : Nat) : Option Refusal :=
  if s.status.busy then some .accessWhileBusy
  else if width ≠ 4 then some .accessWidth
  else if a % 4 ≠ 0 then some .misalignedAccess
  else if a < outBase then none
  else if a < windowEnd P then none
  else some .outsideWindow

end Sys2Proof.Machine
end

