-- ==== Sys2Proof/Machine/Issue.lean ====
section
/-! DEFINITION. What one event does (R57, R61, R79, R140): a read, a write of a register, a write of `CMD` that issues a command, or
reset. -/

namespace Sys2Proof.Machine

/-- A host write of `w` to `CMD` (R22, R79): the decoded command's effect, or `ILLEGAL_COMMAND` (R118). -/
def issueCommand (w : Word) (s : State) : Host.Outcome State Fault Refusal :=
  match decodeWord w with
  | .ok i => exec i s
  | .error _ => .next s.illegalCommand

/-- An accepted host write (R57, R61). -/
def performWrite (a : Nat) (v : Word) (s : State) : Host.Outcome State Fault Refusal :=
  if locate a = .reg .cmd then issueCommand v s else .next (s.writeAt a v)

/-- One event of the host (R57, R58, R61, R140). -/
def perform (e : HostEvent) (s : State) : Host.Outcome State Fault Refusal :=
  match e with
  | .reset => .next s.applyReset
  | .read offset width =>
    match accessRefusal Config.params s offset.toNat width with
    | some r => .refused r
    | none => .next (s.recordRead (s.readAt Config.params offset.toNat))
  | .write offset width v =>
    match accessRefusal Config.params s offset.toNat width with
    | some r => .refused r
    | none => performWrite offset.toNat v s

/-- The event that writes the command word whose low `nbits` bits are those of `w` to `CMD`. -/
def commandEvent (nbits w : Nat) : HostEvent := .write 0 4 (BitVec.ofNat 32 (w % 2 ^ nbits))

end Sys2Proof.Machine
end

