-- ==== Sys2Proof/Machine/Step.lean ====
section
/-! DEFINITION. One step: the host's next access takes effect (R69, R83, R152); with no access left the engine is idle (R141, R153). -/

namespace Sys2Proof.Machine

/-- One step (R69, R152): the next event of the host's list is taken off it and performed. With an empty list nothing happens (R141). -/
def step (s : State) : Host.Outcome State Fault Refusal :=
  match s.pending with
  | [] => .next s
  | e :: rest => perform e { s with pending := rest }

/-- `s` with a write of the word `w` to `CMD` as the host's next access (R72: a command is the value of a `CMD` write; log 6). -/
def State.withFetchWord (s : State) (nbits w : Nat) : State := { s with pending := commandEvent nbits w :: s.pending }

end Sys2Proof.Machine
end

