-- ==== Sys2Proof/Machine/HostProgram.lean ====
section
/-! DEFINITION. The host program syntax as accesses (R83) and its pseudo-instructions as expansions (R84), and how a program is given to the
machine (log 6). -/

namespace Sys2Proof.Machine

/-- The offset a register reference stands for (R83). -/
def RegRef.offset : RegRef → Word
  | .reg r => BitVec.ofNat 32 r.offset
  | .bufWord b i => BitVec.ofNat 32 (b.base + 4 * i)
  | .out i => BitVec.ofNat 32 (outAddr i)
  | .raw offset => offset

/-- The accesses `wrbuf` writes: word `i` of the byte string to `NAME_W<i>` (R84). DESIGN CHOICE (log 20): a byte string that is not of the
buffer's length, to which R84 gives no meaning, expands all the same; bytes beyond the last whole word are dropped, and words beyond the
buffer go to the offsets after it. `Line.wf` refuses such a line, and no statement speaks of one. -/
def wrbufAccesses (b : Buf) : Nat → List Byte → List HostEvent
  | i, b0 :: b1 :: b2 :: b3 :: rest =>
    .write (RegRef.bufWord b i).offset 4 (le32 #v[b0, b1, b2, b3]) :: wrbufAccesses b (i + 1) rest
  | _, _ => []

/-- The accesses of one line (R83, R84); `wait` is one read in the model (R24, R84). It does not check `Line.wf`; what an ill-formed line
expands to is the model's choice (log 20). -/
def Line.expand : Line → List HostEvent
  | .wr r v => [.write r.offset 4 v]
  | .rd r => [.read r.offset 4]
  | .cmd i => [.write (RegRef.reg .cmd).offset 4 (encode i)]
  | .wrbuf b bytes => wrbufAccesses b 0 bytes
  | .rd64 => [.read (RegRef.reg .lcgStateLo).offset 4, .read (RegRef.reg .lcgStateHi).offset 4]
  | .wait => [.read (RegRef.reg .status).offset 4]
  | .check => [.read (RegRef.reg .status).offset 4]

/-- The result of `rd64` from the two values read: `HI * 2^32 + LO` (R84). -/
def rd64Value (lo hi : Word) : DWord := BitVec.ofNat 64 (hi.toNat * 2 ^ 32 + lo.toNat)

/-- The accesses of a host program, in order (R83). -/
def expandProgram (lines : List Line) : List HostEvent := lines.flatMap Line.expand

/-- The machine with a host program to perform (log 6). -/
def State.loadProgram (lines : List Line) (s : State) : State := { s with pending := expandProgram lines }

end Sys2Proof.Machine
end

