-- ==== Sys2Proof/Safety.lean ====
section
/-! DEFINITION. What counts as a good state and a good result, in the terms the claims use: the invariant of every run, the parts of the
state the two modes own (R51), the draws of a command (R14), and the source's results (R139). -/

namespace Sys2Proof.Machine

/-- The invariant of the machine. `BUSY` is 0 (R24); `ERR` and `ERRCODE` agree (R116) and an error is sticky (R124); a fallback seed is
the seed of `SEED_OUT` (R27, R89, R90); a seeded `LCG_STATE` descends from `SEED_OUT` (R34, R99); a valid stream state has counted a
multiple of 64 bytes, at most 512 (R39, R110); `OUT_COUNT` is within `OUT` (R36); the written bytes of `OUT` are in canonical form and
inside `OUT` (R65); `OUT`'s unspecified contents are of an earlier draw (R140). -/
structure Inv (P : Params) (s : State) : Prop where
  busy_clear : s.status.busy = false
  err_iff : s.status.err = true ↔ s.status.errcode ≠ .none
  err_sticky : s.status.err = true → s.status.errSticky = true
  fallback_seed : s.status.fallback = true → s.status.aSeeded = true ∧ s.seedOut = fallbackSeed
  bytes_counted : s.status.bReady = true → s.bBytes.toNat ≤ reseedThreshold ∧ s.bBytes.toNat % blockBytes = 0
  descends : s.status.aSeeded = true → ∃ k, s.lcgState = lcgNext^[k] (zext64 s.seedOut)
  out_count_le : s.outCount.toNat ≤ P.outCapacity
  out_wf : Memory.wf s.out
  out_in : Memory.inOut P s.out
  out_drawn : s.outDraw < s.draws

/-- The draw of `prim_fail` (R14) that the `k`-th invocation from here on makes, counted from 0. -/
def State.failsAt (P : Params) (s : State) (k : Nat) : Bool := (s.primDraws[k]?).getD (P.primFail (s.draws + k))

/-- "No primitive failure was drawn" (R14) in the next `n` invocations. -/
def State.NoFailure (P : Params) (n : Nat) (s : State) : Prop := ∀ k, k < n → s.failsAt P k = false

/-- The state after `k` draws. -/
def State.afterDraws (k : Nat) (s : State) : State := { s with primDraws := s.primDraws.drop k, draws := s.draws + k }

/-- The seed and the fallback flag of R89 as a function of `AKEY`, `AIV` and the next two draws. -/
def State.derivedSeed (P : Params) (s : State) : Word × Bool :=
  if s.failsAt P 0 || s.failsAt P 1 then (fallbackSeed, true)
  else (foldSeed (P.blockEncrypt128 (slice s.akey 16 16) (P.blockEncrypt128 s.aiv (slice s.akey 0 16))), false)

/-- The stream registers: StreamState, `bytes_since_reseed` and the count of reseeds (R18, R38 to R40, R46 to R48). -/
structure Stream where
  roll : Bytes 64
  bkey : Bytes 32
  bnonce : Bytes 12
  bCounter : Word
  bBytes : Word
  reseedCount : Word
  deriving DecidableEq, Repr

/-- The stream registers of a state. -/
def State.stream (s : State) : Stream where
  roll := s.roll
  bkey := s.bkey
  bnonce := s.bnonce
  bCounter := s.bCounter
  bBytes := s.bBytes
  reseedCount := s.reseedCount

/-- The state with these stream registers. -/
def State.withStream (x : Stream) (s : State) : State :=
  { s with
    roll := x.roll, bkey := x.bkey, bnonce := x.bnonce, bCounter := x.bCounter, bBytes := x.bBytes, reseedCount := x.reseedCount }

/-- `b_init()` on the material `m` where `H` does not fail (R100, R105). -/
def Stream.init (P : Params) (m : Bytes 64) : Stream where
  roll := m
  bkey := slice (P.hash384 m) 0 32
  bnonce := slice (P.hash384 m) 32 12
  bCounter := counterDecode (slice (P.hash384 m) 44 4)
  bBytes := 0
  reseedCount := 0

/-- `b_apply()` where `S` does not fail (R103). -/
def Stream.apply (P : Params) (x : Stream) : Stream :=
  { x with
    roll := P.streamApply x.bkey x.bnonce x.bCounter x.roll, bCounter := x.bCounter + 1, bBytes := x.bBytes + 64 }

/-- The reseed of R104 where `H` does not fail. -/
def Stream.reseed (P : Params) (x : Stream) : Stream :=
  { Stream.init P x.roll with reseedCount := x.reseedCount + 1 }

/-- One iteration of the keystream engine where no primitive fails: the application and the reseed check (R103, R104). -/
def Stream.next (P : Params) (x : Stream) : Stream :=
  if reseedThreshold < (x.apply P).bBytes.toNat then (x.apply P).reseed P else x.apply P

/-- The number of applications a `B_GENERATE` of `n` words makes, `ceil(n / 16)` (R112). -/
def applications (n : Nat) : Nat := (n + 15) / 16

/-- The number of invocations a `B_GENERATE` of `n` words makes if none fails: one derivation, the applications, and a reseed after every
ninth (R112, R152). -/
def invocations (n : Nat) : Nat := 1 + applications n + applications n / 9

/-- The Mode A state of R51. -/
structure ModeAState where
  lcgState : DWord
  seedOut : Word
  result : Word
  fallback : Bool
  aSeeded : Bool
  akey : Bytes 32
  aiv : Bytes 16
  seedIn : Word
  upperLimit : Word
  deriving DecidableEq, Repr

/-- The Mode B state of R51. -/
structure ModeBState where
  roll : Bytes 64
  bkey : Bytes 32
  bnonce : Bytes 12
  bCounter : Word
  bBytes : Word
  reseedCount : Word
  bReady : Bool
  bmat : Bytes 64
  deriving DecidableEq, Repr

/-- The state the two modes share (R51), with the draws their commands make. -/
structure SharedState where
  count : Word
  out : Memory
  outDraw : Nat
  outCount : Word
  busy : Bool
  err : Bool
  errSticky : Bool
  errcode : ErrorCode
  primDraws : List Bool
  draws : Nat
  deriving DecidableEq, Repr

/-- The Mode A part of a state (R51). -/
def State.modeA (s : State) : ModeAState where
  lcgState := s.lcgState
  seedOut := s.seedOut
  result := s.result
  fallback := s.status.fallback
  aSeeded := s.status.aSeeded
  akey := s.akey
  aiv := s.aiv
  seedIn := s.seedIn
  upperLimit := s.upperLimit

/-- The Mode B part of a state (R51). -/
def State.modeB (s : State) : ModeBState where
  roll := s.roll
  bkey := s.bkey
  bnonce := s.bnonce
  bCounter := s.bCounter
  bBytes := s.bBytes
  reseedCount := s.reseedCount
  bReady := s.status.bReady
  bmat := s.bmat

/-- The shared part of a state (R51). -/
def State.shared (s : State) : SharedState where
  count := s.count
  out := s.out
  outDraw := s.outDraw
  outCount := s.outCount
  busy := s.status.busy
  err := s.status.err
  errSticky := s.status.errSticky
  errcode := s.status.errcode
  primDraws := s.primDraws
  draws := s.draws

/-- A command of Mode A (R81). -/
def isModeA (i : Instr) : Bool := i.modeBit == 0

/-- The source's result of a generate command (R139), read from the block after it: the sequence, or the kind of error. Codes 1 and 2
have no counterpart. -/
inductive SourceResult where
  | ok (words : List Word)
  | invalidArgument
  | primitiveFailure
  | noCounterpart
  deriving DecidableEq, Repr

/-- The result of R139. -/
def State.sourceResult (P : Params) (s : State) : SourceResult :=
  match s.status.errcode with
  | .none => .ok ((List.range s.outCount.toNat).map (s.outWord P))
  | .invalidArgument => .invalidArgument
  | .hashFailure => .primitiveFailure
  | .cipherFailure => .primitiveFailure
  | .illegalCommand => .noCounterpart
  | .sequenceError => .noCounterpart

end Sys2Proof.Machine
end

