-- ==== Sys2Proof/Certificates/Slice0/Obligations.lean ====
section
/-! DEFINITION. The statements for the provers, from the numbered rules of spec/. `Config.params` is the hardware with every open
parameter open (R8, R11 to R14), so each statement holds for every value of them. -/

open Sys2Proof Sys2Proof.Machine

/-! ### Reset -/

/-- R53: every register and `STATUS` field is 0 after reset, every buffer zero bytes, `ID` and `CAPACITY` their constants. That an
unspecified byte of `OUT` is the free value `Config.unspecifiedByte` of the reset's draw is the model's choice (log 4). -/
def Obligations.ResetValuesOfEveryRegister : Prop :=
  (∀ r : Reg, State.reset.readReg Config.params r =
    if r = .id then 0x53430001 else if r = .capacity then BitVec.ofNat 32 Config.params.outCapacity else 0) ∧
  State.reset.status = { busy := false, err := false, errSticky := false, fallback := false, aSeeded := false, bReady := false,
                         errcode := .none } ∧
  State.reset.akey = zeros 32 ∧ State.reset.aiv = zeros 16 ∧ State.reset.bmat = zeros 64 ∧ State.reset.roll = zeros 64 ∧
  State.reset.bkey = zeros 32 ∧ State.reset.bnonce = zeros 12 ∧
  ∀ a, State.reset.outByte Config.params a = Config.unspecifiedByte State.reset.outDraw a

/-- The invariant of every run holds right after reset (its clause on draws is the model's own, log 4). -/
def Obligations.ResetMeetsInvariant : Prop := Inv Config.params State.reset

/-- R140: reset gives every register, flag and buffer its reset value, `ERR_STICKY` included, and leaves every byte of `OUT` an
unspecified value of a new draw. That the draws are counted and that the host's list and the values read go on is the model's choice
(log 4, log 8). -/
def Obligations.ResetEventRestoresReset : Prop :=
  ∀ (s : State) (rest : List HostEvent), s.pending = .reset :: rest →
    ∃ t, step s = .next t ∧
      t = { State.reset with outDraw := s.draws, draws := t.draws, primDraws := s.primDraws, pending := rest, reads := s.reads } ∧
      s.draws < t.draws ∧ ∀ a, t.outByte Config.params a = Config.unspecifiedByte s.draws a

/-- R142: right after reset `A_ADVANCE` and `B_STEP` raise `SEQUENCE_ERROR`, and no Mode B phase but Uninitialised is entered. -/
def Obligations.ResetIsUnseededAndUninitialised : Prop :=
  State.reset.streamPhase = .uninitialised ∧
  exec .aAdvance State.reset = .next { State.reset with
    status := { Status.reset with err := true, errSticky := true, errcode := .sequenceError } } ∧
  exec .bStep State.reset = .next { State.reset with
    status := { Status.reset with err := true, errSticky := true, errcode := .sequenceError } }

/-! ### The command word -/

/-- R78: the seven words, each written out, decode to their commands; the words of the decoder vectors E-1 to E-7 do not decode. -/
def Obligations.CommandWordsDecodeAsAssigned : Prop :=
  decodeWord 0x00000001 = .ok .aLoadSeed ∧ decodeWord 0x00000002 = .ok .aDerive ∧ decodeWord 0x00000003 = .ok .aAdvance ∧
  decodeWord 0x00000004 = .ok .aGenerate ∧ decodeWord 0x00000011 = .ok .bInit ∧ decodeWord 0x00000012 = .ok .bStep ∧
  decodeWord 0x00000013 = .ok .bGenerate ∧
  decodeWord 0x00000000 = .error .unassignedOpcode ∧ decodeWord 0x00000005 = .error .unassignedOpcode ∧
  decodeWord 0x00000010 = .error .unassignedOpcode ∧ decodeWord 0x00000014 = .error .unassignedOpcode ∧
  decodeWord 0x00000023 = .error .unassignedOpcode ∧ decodeWord 0x00000103 = .error .reservedBits ∧
  decodeWord 0x00000105 = .error .reservedBits

/-- R78, R79, R80: a word decodes to a command exactly when it is that command's one word, whatever follows its bytes, and it decodes to
some command exactly when its fields are legal (R76); every other word is refused. -/
def Obligations.DecodeInvertsEncode : Prop :=
  (∀ (w : Word) (i : Instr), decodeWord w = .ok i ↔ w = encode i) ∧
  (∀ (i : Instr) (rest : List Byte), decode (encodeBytes i ++ rest) = .ok (i, rest)) ∧
  (∀ w : Word, (∃ i, decodeWord w = .ok i) ↔ CommandWord.wf w = true)

/-- R80: a word with `W[31:8] != 0`, or whose opcode is `0x00`, `0x05` to `0x10`, or `0x14` to `0xFF`, is illegal, and no other word. -/
def Obligations.IllegalWordsAreRefused : Prop :=
  ∀ w : Word, (∃ e, decodeWord w = .error e) ↔
    w.extractLsb' 8 24 ≠ 0 ∨ (w.extractLsb' 0 8).toNat = 0 ∨
      (0x05 ≤ (w.extractLsb' 0 8).toNat ∧ (w.extractLsb' 0 8).toNat ≤ 0x10) ∨ 0x14 ≤ (w.extractLsb' 0 8).toNat

/-! ### One step -/

/-- A step runs the decoded command: a 4-byte write to `CMD` of a word that decodes to `i` is `exec i` on the state with that access
taken off the host's list; so is the word that `withFetchWord` places. The list is the model's choice (log 6). -/
def Obligations.StepRunsDecodedCommand : Prop :=
  (∀ (s : State) (rest : List HostEvent) (w : Word) (i : Instr),
    s.status.busy = false → s.pending = .write 0 4 w :: rest → decodeWord w = .ok i → step s = exec i { s with pending := rest }) ∧
  (∀ (s : State) (i : Instr), s.status.busy = false → step (s.withFetchWord 32 (encode i).toNat) = exec i s)

/-- R118, R125: a write to `CMD` of a word with bits 31:8 not zero or with an opcode that is not assigned raises `ILLEGAL_COMMAND`:
`ERR`, `ERRCODE` and `ERR_STICKY` change and nothing else. -/
def Obligations.IllegalCommandIsRecorded : Prop :=
  ∀ (s : State) (rest : List HostEvent) (w : Word), s.status.busy = false → s.pending = .write 0 4 w :: rest →
    w.extractLsb' 8 24 ≠ 0 ∨ w.extractLsb' 0 8 ∉ [0x01#8, 0x02#8, 0x03#8, 0x04#8, 0x11#8, 0x12#8, 0x13#8] →
    step s = .next { s with
      pending := rest
      status := { s.status with err := true, errcode := .illegalCommand, errSticky := true } }

/-- R141, R153: with no host access left the engine does nothing. That a step without an access answers the same state is the model's choice
(log 6). -/
def Obligations.IdleEngineKeepsItsState : Prop := ∀ s : State, s.pending = [] → step s = .next s

/-- R57, R61: a read the host may make appends the value of its offset to the values read and changes nothing else; every offset then
reads as before. The list of the values read is the model's own (log 6). -/
def Obligations.HostReadChangesNothing : Prop :=
  ∀ (s : State) (rest : List HostEvent) (a : Word),
    s.status.busy = false → s.pending = .read a 4 :: rest → a.toNat % 4 = 0 → a.toNat < windowEnd Config.params →
    ∃ t, step s = .next t ∧
      t = { s with pending := rest, reads := s.reads ++ [s.readAt Config.params a.toNat] } ∧
      ∀ x, t.readAt Config.params x = s.readAt Config.params x

/-- R61, R63: a write to `COUNT`, `UPPER_LIMIT`, `SEED_IN` or a word of `AKEY`, `AIV`, `BMAT` stores the value there (for a buffer the
4 bytes of that word, little-endian, and no other byte) and does nothing else. -/
def Obligations.HostWriteStoresTheValue : Prop :=
  ∀ (s : State) (rest : List HostEvent) (a v : Word), s.status.busy = false → s.pending = .write a 4 v :: rest →
    (a = 0x008 → step s = .next { s with pending := rest, count := v }) ∧
    (a = 0x00C → step s = .next { s with pending := rest, upperLimit := v }) ∧
    (a = 0x010 → step s = .next { s with pending := rest, seedIn := v }) ∧
    (∀ i, i < 8 → a.toNat = 0x040 + 4 * i → ∃ b : Bytes 32, step s = .next { s with pending := rest, akey := b } ∧
      ∀ k, k < 32 → byteAt b k = if k / 4 = i then v.extractLsb' (8 * (k % 4)) 8 else byteAt s.akey k) ∧
    (∀ i, i < 4 → a.toNat = 0x060 + 4 * i → ∃ b : Bytes 16, step s = .next { s with pending := rest, aiv := b } ∧
      ∀ k, k < 16 → byteAt b k = if k / 4 = i then v.extractLsb' (8 * (k % 4)) 8 else byteAt s.aiv k) ∧
    (∀ i, i < 16 → a.toNat = 0x080 + 4 * i → ∃ b : Bytes 64, step s = .next { s with pending := rest, bmat := b } ∧
      ∀ k, k < 64 → byteAt b k = if k / 4 = i then v.extractLsb' (8 * (k % 4)) 8 else byteAt s.bmat k)

/-- R59, R60: a reserved offset and `CMD` read 0, and an allowed write to a reserved offset, to a register marked R or to `OUT`, which is
every offset but those of `CMD` and of the RW registers and buffers, is ignored. -/
def Obligations.ReservedAndReadOnlyOffsets : Prop :=
  (∀ (s : State) (a : Nat), a % 4 = 0 →
    a = 0 ∨ a = 0x03C ∨ (0x070 ≤ a ∧ a < 0x080) ∨ (0x12C ≤ a ∧ a < 0x1000) → s.readAt Config.params a = 0) ∧
  (∀ (s : State) (rest : List HostEvent) (a v : Word),
    s.status.busy = false → s.pending = .write a 4 v :: rest → a.toNat % 4 = 0 → a.toNat < windowEnd Config.params →
    a ≠ 0x000 → a ≠ 0x008 → a ≠ 0x00C → a ≠ 0x010 → ¬ (0x040 ≤ a.toNat ∧ a.toNat < 0x070) →
    ¬ (0x080 ≤ a.toNat ∧ a.toNat < 0x0C0) → step s = .next { s with pending := rest })

/-- R58, R146: a refused access stops the step under its own name, and an access is refused while `BUSY = 1`, with a width other than 4,
at an offset that is not a multiple of 4, or at an offset outside the window, for every `OUT_CAPACITY`. Which name is given where an
access breaks several duties (`BUSY` before the width, the width before the alignment, the alignment before the window) is the model's
choice (log 7). -/
def Obligations.ForbiddenAccessesAreRefused : Prop :=
  (∀ (s : State) (rest : List HostEvent) (a : Word) (width : Nat) (v : Word) (r : Refusal),
    s.pending = .read a width :: rest ∨ s.pending = .write a width v :: rest →
    accessRefusal Config.params s a.toNat width = some r → step s = .refused r) ∧
  (∀ (P : Params) (s : State) (a width : Nat),
    (s.status.busy = true → accessRefusal P s a width = some .accessWhileBusy) ∧
    (s.status.busy = false → width ≠ 4 → accessRefusal P s a width = some .accessWidth) ∧
    (s.status.busy = false → width = 4 → a % 4 ≠ 0 → accessRefusal P s a width = some .misalignedAccess) ∧
    (s.status.busy = false → width = 4 → a % 4 = 0 → windowEnd P ≤ a → accessRefusal P s a width = some .outsideWindow))

/-- R58, R68, R116: a step answers a next state exactly where the host's next event keeps the host's duties (an access of 4 bytes at an
aligned offset inside the window, with `BUSY = 0`), is a reset, or does not exist: no access faults and no command stops. The list of
events, and that a reset may come at any place in it, are the model's choice (log 6, log 8). -/
def Obligations.OnlyForbiddenAccessesStop : Prop :=
  ∀ s : State, (∃ t, step s = .next t) ↔
    (s.pending = [] ∨ ∃ e rest, s.pending = e :: rest ∧
      (e = .reset ∨ (s.status.busy = false ∧ e.wf Config.params = true)))

/-! ### The host window -/

/-- R56: in every state each register reads at its offset as the register it is (R22 to R42), and each register, buffer word and output
word stands at its offset. -/
def Obligations.WindowLayout : Prop :=
  (∀ s : State,
    s.readAt Config.params 0x000 = 0 ∧ s.readAt Config.params 0x004 = s.status.word ∧
    s.readAt Config.params 0x008 = s.count ∧ s.readAt Config.params 0x00C = s.upperLimit ∧
    s.readAt Config.params 0x010 = s.seedIn ∧ s.readAt Config.params 0x014 = s.seedOut ∧
    s.readAt Config.params 0x018 = s.result ∧ s.readAt Config.params 0x01C = s.outCount ∧
    s.readAt Config.params 0x020 = s.lcgState.extractLsb' 0 32 ∧ s.readAt Config.params 0x024 = s.lcgState.extractLsb' 32 32 ∧
    s.readAt Config.params 0x028 = s.bCounter ∧ s.readAt Config.params 0x02C = s.bBytes ∧
    s.readAt Config.params 0x030 = s.reseedCount ∧ s.readAt Config.params 0x034 = 0x53430001 ∧
    s.readAt Config.params 0x038 = BitVec.ofNat 32 Config.params.outCapacity) ∧
  (∀ r : Reg, locate r.offset = .reg r) ∧
  (∀ (b : Buf) (i : Nat), 4 * i < b.size → locate (b.base + 4 * i) = .bufWord b i) ∧
  (∀ i : Nat, locate (0x1000 + 4 * i) = .out i)

/-- R23, R117: the fields of `STATUS` at their bits, the reserved bits 7:6 and 31:12 read 0, and bits 11:8 read the number of the error
code. -/
def Obligations.StatusFieldsAtTheirBits : Prop :=
  ∀ s : State, let w := s.readAt Config.params 0x004
    w.extractLsb' 0 1 = BitVec.ofBool s.status.busy ∧ w.extractLsb' 1 1 = BitVec.ofBool s.status.err ∧
    w.extractLsb' 2 1 = BitVec.ofBool s.status.errSticky ∧ w.extractLsb' 3 1 = BitVec.ofBool s.status.fallback ∧
    w.extractLsb' 4 1 = BitVec.ofBool s.status.aSeeded ∧ w.extractLsb' 5 1 = BitVec.ofBool s.status.bReady ∧
    w.extractLsb' 6 2 = 0 ∧ w.extractLsb' 12 20 = 0 ∧
    w.extractLsb' 8 4 = match s.status.errcode with
      | .none => 0
      | .illegalCommand => 1
      | .sequenceError => 2
      | .invalidArgument => 3
      | .hashFailure => 4
      | .cipherFailure => 5

/-- R24: every read of `STATUS` that the host makes returns `BUSY = 0`. -/
def Obligations.BusyNeverReadsOne : Prop :=
  ∀ (s t : State) (rest : List HostEvent), s.pending = .read 0x004 4 :: rest → step s = .next t →
    ∃ w : Word, t.reads = s.reads ++ [w] ∧ w.extractLsb' 0 1 = 0

/-- R62, R63: byte `j` of the word read at `base + 4*i` is byte `4*i + j` of the buffer. -/
def Obligations.BufferWordViewIsLittleEndian : Prop :=
  ∀ (s : State) (i j : Nat), j < 4 →
    (i < 8 → byteAt (leBytes32 (s.readAt Config.params (0x040 + 4 * i))) j = byteAt s.akey (4 * i + j)) ∧
    (i < 4 → byteAt (leBytes32 (s.readAt Config.params (0x060 + 4 * i))) j = byteAt s.aiv (4 * i + j)) ∧
    (i < 16 → byteAt (leBytes32 (s.readAt Config.params (0x080 + 4 * i))) j = byteAt s.bmat (4 * i + j)) ∧
    (i < 16 → byteAt (leBytes32 (s.readAt Config.params (0x0C0 + 4 * i))) j = byteAt s.roll (4 * i + j)) ∧
    (i < 8 → byteAt (leBytes32 (s.readAt Config.params (0x100 + 4 * i))) j = byteAt s.bkey (4 * i + j)) ∧
    (i < 3 → byteAt (leBytes32 (s.readAt Config.params (0x120 + 4 * i))) j = byteAt s.bnonce (4 * i + j))

/-- R62, R64: byte `j` of the word read at `0x1000 + 4*i` is the byte of `OUT` at host offset `0x1000 + 4*i + j`. -/
def Obligations.OutWordViewIsLittleEndian : Prop :=
  ∀ (s : State) (i j : Nat), j < 4 →
    byteAt (leBytes32 (s.readAt Config.params (0x1000 + 4 * i))) j = s.outByte Config.params (0x1000 + 4 * i + j)

/-- R37, R84: the two reads of `rd64 LCG_STATE` give the 64-bit state. -/
def Obligations.LcgStateReadsAsTwoWords : Prop :=
  ∀ s : State, rd64Value (s.readAt Config.params 0x020) (s.readAt Config.params 0x024) = s.lcgState

/-- R84: the accesses of `wrbuf` set the whole buffer to the given byte string. -/
def Obligations.WrbufWritesTheWholeBuffer : Prop :=
  ∀ (s : State) (rest : List HostEvent), s.status.busy = false →
    (∀ b : Bytes 32, s.pending = (Line.wrbuf .akey b.toList).expand ++ rest →
      Host.Core.run core 8 s = .next { s with pending := rest, akey := b }) ∧
    (∀ b : Bytes 16, s.pending = (Line.wrbuf .aiv b.toList).expand ++ rest →
      Host.Core.run core 4 s = .next { s with pending := rest, aiv := b }) ∧
    (∀ b : Bytes 64, s.pending = (Line.wrbuf .bmat b.toList).expand ++ rest →
      Host.Core.run core 16 s = .next { s with pending := rest, bmat := b })

/-! ### Mode A -/

/-- R90, R88: `A_LOAD_SEED` always completes; `LCG_STATE` is `SEED_IN` zero-extended, `SEED_OUT` is `SEED_IN`, `FALLBACK` is 0,
`A_SEEDED` is 1, and nothing else changes but `ERR` and `ERRCODE`, which are 0. -/
def Obligations.LoadSeedLoadsTheState : Prop :=
  ∀ s : State, exec .aLoadSeed s = .next { s with
    lcgState := BitVec.ofNat 64 s.seedIn.toNat
    seedOut := s.seedIn
    status := { s.status with err := false, errcode := .none, fallback := false, aSeeded := true } }

/-- R91, R89: where neither draw of `E` fails, `A_DERIVE` loads the XOR of the four little-endian words of `E(AKEY[16..32), E(AIV,
AKEY[0..16)))`, with `FALLBACK = 0`; two draws are made and nothing else changes. The fields that hold the draws are the model's own (log
2). -/
def Obligations.DeriveLoadsTheCipherSeed : Prop :=
  ∀ (s : State) (m : Bytes 16) (seed : Word), s.NoFailure Config.params 2 →
    m = Config.blockEncrypt128 (slice s.akey 16 16) (Config.blockEncrypt128 s.aiv (slice s.akey 0 16)) →
    seed = wordAt m 0 ^^^ wordAt m 1 ^^^ wordAt m 2 ^^^ wordAt m 3 →
    exec .aDerive s = .next { s.afterDraws 2 with
      lcgState := BitVec.ofNat 64 seed.toNat
      seedOut := seed
      status := { s.status with err := false, errcode := .none, fallback := false, aSeeded := true } }

/-- R89, R91, R123: where `E` fails on its first or on its second invocation, `A_DERIVE` completes without error with the fallback seed 1
and `FALLBACK = 1`; a failure of the first skips the second. The fields that hold the draws are the model's own (log 2). -/
def Obligations.DeriveFallsBackOnCipherFailure : Prop :=
  ∀ s : State, s.failsAt Config.params 0 = true ∨ s.failsAt Config.params 1 = true →
    exec .aDerive s = .next { s.afterDraws (if s.failsAt Config.params 0 then 1 else 2) with
      lcgState := 1
      seedOut := 1
      status := { s.status with err := false, errcode := .none, fallback := true, aSeeded := true } }

/-- R92, R86, R87: `A_ADVANCE` on a seeded state with a bound of at least 1 puts `(s * 1103515245 + 12345) mod 2^64` into `LCG_STATE` and
`(s' div (2 * ul)) mod ul` of that new state into `RESULT`, and nothing else changes but `ERR` and `ERRCODE`, which are 0. -/
def Obligations.AdvanceDrawsOneWord : Prop :=
  ∀ s : State, s.status.aSeeded = true → s.upperLimit ≠ 0 →
    ∃ t, exec .aAdvance s = .next t ∧
      t = { s with
        lcgState := t.lcgState, result := t.result, status := { s.status with err := false, errcode := .none } } ∧
      t.lcgState.toNat = (s.lcgState.toNat * 1103515245 + 12345) % 2 ^ 64 ∧
      t.result.toNat = t.lcgState.toNat / (s.upperLimit.toNat * 2) % s.upperLimit.toNat

/-- R93, R99: `A_GENERATE` with legal operands completes: `OUT[i] = extract(lcg_next^(i+1)(zext_64(seed)), ul)` for `i < COUNT`, every
other byte of `OUT` as before, `LCG_STATE` the state after the last draw, `SEED_OUT`, `FALLBACK`, `A_SEEDED` and `OUT_COUNT` written, and
nothing else changed but the draws. The fields that hold the draws are the model's own (log 2). -/
def Obligations.GenerateBoundedFillsOut : Prop :=
  ∀ (s : State) (seed : Word) (fb : Bool),
    s.count ≠ 0 → s.count.toNat ≤ Config.params.outCapacity → s.upperLimit ≠ 0 → (seed, fb) = s.derivedSeed Config.params →
    ∃ t, exec .aGenerate s = .next t ∧
      t = { s with
        status := { s.status with err := false, errcode := .none, fallback := fb, aSeeded := true }
        lcgState := lcgNext^[s.count.toNat] (BitVec.ofNat 64 seed.toNat)
        seedOut := seed
        outCount := s.count
        out := t.out
        primDraws := t.primDraws
        draws := t.draws } ∧
      (∀ i, i < s.count.toNat →
        t.outWord Config.params i = extract (lcgNext^[i + 1] (BitVec.ofNat 64 seed.toNat)) s.upperLimit) ∧
      (∀ a, a < 0x1000 ∨ 0x1000 + 4 * s.count.toNat ≤ a → t.outByte Config.params a = s.outByte Config.params a)

/-- R95: every word Mode A extracts is below the bound: `RESULT` of `A_ADVANCE` and `OUT[i]` of `A_GENERATE`. -/
def Obligations.ModeAOutputsBelowTheBound : Prop :=
  (∀ s t : State, s.status.aSeeded = true → s.upperLimit ≠ 0 → exec .aAdvance s = .next t →
    t.result.toNat < s.upperLimit.toNat) ∧
  (∀ s t : State, exec .aGenerate s = .next t → t.status.err = false →
    ∀ i, i < s.count.toNat → (t.outWord Config.params i).toNat < s.upperLimit.toNat)

/-- R96: with `UPPER_LIMIT = 1` every draw is 0. -/
def Obligations.BoundOneDrawsZeros : Prop :=
  ∀ s t : State, s.upperLimit = 1 →
    (s.status.aSeeded = true → exec .aAdvance s = .next t → t.result = 0) ∧
    (exec .aGenerate s = .next t → t.status.err = false → ∀ i, i < s.count.toNat → t.outWord Config.params i = 0)

/-- R98: what `A_GENERATE` leaves in `OUT[0..COUNT)`, `LCG_STATE`, `SEED_OUT` and `FALLBACK` is a function of `COUNT`, `UPPER_LIMIT`,
`AKEY`, `AIV` and the draws of `E`. How a draw is held is the model's own (log 2). -/
def Obligations.GenerateBoundedIsDeterministic : Prop :=
  ∀ s s' t t' : State,
    s.count = s'.count → s.upperLimit = s'.upperLimit → s.akey = s'.akey → s.aiv = s'.aiv →
    s.failsAt Config.params 0 = s'.failsAt Config.params 0 → s.failsAt Config.params 1 = s'.failsAt Config.params 1 →
    exec .aGenerate s = .next t → exec .aGenerate s' = .next t' → t.status.err = false →
    t'.status.err = false ∧ t.lcgState = t'.lcgState ∧ t.seedOut = t'.seedOut ∧ t.status.fallback = t'.status.fallback ∧
      ∀ i, i < s.count.toNat → t.outWord Config.params i = t'.outWord Config.params i

/-- D31 of R93: an `A_ADVANCE` after an `A_GENERATE` draws the next word of the same sequence. -/
def Obligations.AdvanceContinuesGenerate : Prop :=
  ∀ s t u : State, exec .aGenerate s = .next t → t.status.err = false → exec .aAdvance t = .next u →
    u.lcgState = lcgNext^[s.count.toNat + 1] (BitVec.ofNat 64 t.seedOut.toNat) ∧
    u.result = extract (lcgNext^[s.count.toNat + 1] (BitVec.ofNat 64 t.seedOut.toNat)) s.upperLimit

/-! ### Mode B -/

/-- R105, R100, R101: where `H` does not fail, `B_INIT` puts `BMAT` into `ROLL`, digest bytes 0..32, 32..44 and 44..48 into `BKEY`,
`BNONCE` and `B_COUNTER`, clears `B_BYTES` and `RESEED_COUNT`, sets `B_READY`, and changes nothing else but `ERR` and `ERRCODE`. The
fields that hold the draws are the model's own (log 2). -/
def Obligations.InitStreamFromTheDigest : Prop :=
  ∀ (s : State) (d : Bytes 48), s.NoFailure Config.params 1 → d = Config.hash384 s.bmat →
    exec .bInit s = .next { s.afterDraws 1 with
      roll := s.bmat
      bkey := slice d 0 32
      bnonce := slice d 32 12
      bCounter := le32 (slice d 44 4)
      bBytes := 0
      reseedCount := 0
      status := { s.status with err := false, errcode := .none, bReady := true } }

/-- R121, R126: where `H` fails, `B_INIT` ends with `HASH_FAILURE` and `B_READY = 0`; `OUT`, `OUT_COUNT`, the Mode A state and the input
registers are unchanged (the stream registers are unspecified). The fields that hold the draws are the model's own (log 2). -/
def Obligations.InitHashFailure : Prop :=
  ∀ s : State, s.failsAt Config.params 0 = true →
    ∃ t, exec .bInit s = .next t ∧
      t = { s with
        status := { s.status with err := true, errSticky := true, errcode := .hashFailure, bReady := false }
        roll := t.roll, bkey := t.bkey, bnonce := t.bnonce, bCounter := t.bCounter, bBytes := t.bBytes,
        reseedCount := t.reseedCount, primDraws := t.primDraws, draws := t.draws }

/-- R103, R106: where `S` does not fail and the byte count does not pass 512, `B_STEP` on a valid stream state puts `S(BKEY, BNONCE,
B_COUNTER, ROLL)` into `ROLL`, adds 1 to `B_COUNTER` and 64 to `B_BYTES`, and changes nothing else but `ERR` and `ERRCODE`. The fields
that hold the draws are the model's own (log 2). The sum of the byte count is taken in 32 bits, and its wrap, from `B_BYTES = 0xFFFFFFC0`
up, is the model's choice (log 10). -/
def Obligations.StepAppliesTheStreamCipher : Prop :=
  ∀ s : State, s.status.bReady = true → (s.bBytes + 64).toNat ≤ 512 → s.NoFailure Config.params 1 →
    exec .bStep s = .next { s.afterDraws 1 with
      roll := Config.streamApply s.bkey s.bnonce s.bCounter s.roll
      bCounter := s.bCounter + 1
      bBytes := s.bBytes + 64
      status := { s.status with err := false, errcode := .none, bReady := true } }

/-- R104, R106, R111: where the byte count passes 512 and neither `S` nor `H` fails, `B_STEP` takes the key, the nonce and the counter
from the digest of the new rolling buffer (the counter unincremented), clears `B_BYTES`, and adds 1 to `RESEED_COUNT`. The fields that
hold the draws are the model's own (log 2). -/
def Obligations.StepReseedsAboveTheThreshold : Prop :=
  ∀ (s : State) (r : Bytes 64) (d : Bytes 48), s.status.bReady = true → 512 < (s.bBytes + 64).toNat →
    s.NoFailure Config.params 2 → r = Config.streamApply s.bkey s.bnonce s.bCounter s.roll → d = Config.hash384 r →
    exec .bStep s = .next { s.afterDraws 2 with
      roll := r
      bkey := slice d 0 32
      bnonce := slice d 32 12
      bCounter := le32 (slice d 44 4)
      bBytes := 0
      reseedCount := s.reseedCount + 1
      status := { s.status with err := false, errcode := .none, bReady := true } }

/-- R122, R121, R126: `B_STEP` ends with `CIPHER_FAILURE` where `S` fails, and with `HASH_FAILURE` where `S` succeeds and the reseed's `H`
fails; `B_READY` is 0, the stream registers are unspecified, and nothing else changes. The fields that hold the draws are the model's own
(log 2). -/
def Obligations.StepPrimitiveFailures : Prop :=
  ∀ (s : State) (c : ErrorCode), s.status.bReady = true →
    (s.failsAt Config.params 0 = true ∧ c = .cipherFailure) ∨
      (s.failsAt Config.params 0 = false ∧ 512 < (s.bBytes + 64).toNat ∧ s.failsAt Config.params 1 = true ∧ c = .hashFailure) →
    ∃ t, exec .bStep s = .next t ∧
      t = { s with
        status := { s.status with err := true, errSticky := true, errcode := c, bReady := false }
        roll := t.roll, bkey := t.bkey, bnonce := t.bnonce, bCounter := t.bCounter, bBytes := t.bBytes,
        reseedCount := t.reseedCount, primDraws := t.primDraws, draws := t.draws }

/-- R107, R102, R108: where no primitive fails, `B_GENERATE` with a legal `COUNT` completes: the stream registers are those of `ceil(COUNT
/ 16)` iterations from `BMAT`, `OUT[16*a + j]` is lane `j` of the block of iteration `a + 1`, every other byte of `OUT` is as before,
`OUT_COUNT` is `COUNT`, `B_READY` is 1, and nothing else changed but the draws. The fields that hold the draws are the model's own (log
2). -/
def Obligations.GenerateStreamFillsOut : Prop :=
  ∀ s : State, s.count ≠ 0 → s.count.toNat ≤ Config.params.outCapacity →
    s.NoFailure Config.params (invocations s.count.toNat) →
    ∃ t, exec .bGenerate s = .next t ∧
      t = { s.afterDraws (invocations s.count.toNat) with
        status := { s.status with err := false, errcode := .none, bReady := true }
        outCount := s.count, out := t.out
        roll := t.roll, bkey := t.bkey, bnonce := t.bnonce, bCounter := t.bCounter, bBytes := t.bBytes,
        reseedCount := t.reseedCount } ∧
      t.stream = (Stream.next Config.params)^[applications s.count.toNat] (Stream.init Config.params s.bmat) ∧
      (∀ a j, j < 16 → 16 * a + j < s.count.toNat →
        t.outWord Config.params (16 * a + j) =
          wordAt ((Stream.next Config.params)^[a + 1] (Stream.init Config.params s.bmat)).roll j) ∧
      (∀ a, a < 0x1000 ∨ 0x1000 + 4 * s.count.toNat ≤ a → t.outByte Config.params a = s.outByte Config.params a)

/-- R112: a `B_GENERATE` of `n` words without failures makes `ceil(n / 16)` applications and `floor(ceil(n / 16) / 9)` reseeds, so
`B_BYTES` ends at 64 times the applications since the last reseed. How a draw is held is the model's own (log 2). -/
def Obligations.ReseedCadence : Prop :=
  ∀ s t : State, s.count ≠ 0 → s.count.toNat ≤ Config.params.outCapacity →
    s.NoFailure Config.params (invocations s.count.toNat) → exec .bGenerate s = .next t →
    t.reseedCount.toNat = (s.count.toNat + 15) / 16 / 9 ∧ t.bBytes.toNat = 64 * ((s.count.toNat + 15) / 16 % 9)

/-- R115, R111, R112: the output of a `B_GENERATE` that completes is chained. The blocks start from `BMAT`; block `a + 1` is `S` applied to
block `a`, with the key, the nonce and the counter of the digest of `BMAT` at first, the counter increased by 1 after every block, and all
three replaced from the digest of the block after every ninth; `OUT[16*a + j]` is lane `j` of block `a + 1`, and `ROLL` the last block. -/
def Obligations.OutputBlocksAreChained : Prop :=
  ∀ s t : State, exec .bGenerate s = .next t → t.status.err = false →
    ∃ (block : Nat → Bytes 64) (key : Nat → Bytes 32) (nonce : Nat → Bytes 12) (counter : Nat → Word),
      block 0 = s.bmat ∧
      key 0 = slice (Config.hash384 s.bmat) 0 32 ∧ nonce 0 = slice (Config.hash384 s.bmat) 32 12 ∧
      counter 0 = le32 (slice (Config.hash384 s.bmat) 44 4) ∧
      (∀ a, block (a + 1) = Config.streamApply (key a) (nonce a) (counter a) (block a)) ∧
      (∀ a, if (a + 1) % 9 = 0 then
          key (a + 1) = slice (Config.hash384 (block (a + 1))) 0 32 ∧
          nonce (a + 1) = slice (Config.hash384 (block (a + 1))) 32 12 ∧
          counter (a + 1) = le32 (slice (Config.hash384 (block (a + 1))) 44 4)
        else key (a + 1) = key a ∧ nonce (a + 1) = nonce a ∧ counter (a + 1) = counter a + 1) ∧
      (∀ a j, j < 16 → 16 * a + j < s.count.toNat → t.outWord Config.params (16 * a + j) = wordAt (block (a + 1)) j) ∧
      t.roll = block ((s.count.toNat + 15) / 16)

/-- R126, R127, R128, R108: where the invocation `k` of a `B_GENERATE` is the first that fails, the command ends with that primitive's
error: `H` is invocation 0 and every tenth after it, the trailing reseed included, and `S` every other one. `B_READY` and `OUT_COUNT` are
0, `OUT[i]` for `i >= COUNT` is unchanged, and so is everything but the stream registers, `OUT[0..COUNT)` and the draws. The fields that
hold the draws are the model's own (log 2). -/
def Obligations.GenerateStreamPrimitiveFailure : Prop :=
  ∀ (s : State) (k : Nat), s.count ≠ 0 → s.count.toNat ≤ Config.params.outCapacity →
    k < invocations s.count.toNat → s.NoFailure Config.params k → s.failsAt Config.params k = true →
    ∃ t, exec .bGenerate s = .next t ∧
      t = { s with
        status := { s.status with
          err := true, errSticky := true, bReady := false
          errcode := if k % 10 = 0 then .hashFailure else .cipherFailure }
        outCount := 0, out := t.out
        roll := t.roll, bkey := t.bkey, bnonce := t.bnonce, bCounter := t.bCounter, bBytes := t.bBytes,
        reseedCount := t.reseedCount, primDraws := t.primDraws, draws := t.draws } ∧
      (∀ a, a < 0x1000 ∨ 0x1000 + 4 * s.count.toNat ≤ a → t.outByte Config.params a = s.outByte Config.params a)

/-- R114: what `B_GENERATE` leaves in `OUT[0..COUNT)` and the stream registers is a function of `COUNT` and `BMAT` where no failure is
drawn. How a draw is held is the model's own (log 2). -/
def Obligations.GenerateStreamIsDeterministic : Prop :=
  ∀ s s' t t' : State,
    s.count = s'.count → s.bmat = s'.bmat → exec .bGenerate s = .next t → exec .bGenerate s' = .next t' →
    t.status.err = false → t'.status.err = false →
    t.stream = t'.stream ∧ ∀ i, i < s.count.toNat → t.outWord Config.params i = t'.outWord Config.params i

/-- R126, R119: after a command that ended with `HASH_FAILURE` or `CIPHER_FAILURE` a `B_STEP` raises `SEQUENCE_ERROR`, so the unspecified
stream registers are not read. -/
def Obligations.FailedStreamIsNotStepped : Prop :=
  ∀ (i : Instr) (s t : State), exec i s = .next t → t.status.errcode = .hashFailure ∨ t.status.errcode = .cipherFailure →
    exec .bStep t = .next { t with status := { t.status with errcode := .sequenceError } }

/-! ### All commands -/

/-- R119, R125: `A_ADVANCE` when `A_SEEDED = 0` and `B_STEP` when `B_READY = 0` raise `SEQUENCE_ERROR`, and nothing else changes. -/
def Obligations.SequenceErrorWithoutState : Prop :=
  ∀ s : State,
    (s.status.aSeeded = false → exec .aAdvance s = .next { s with
      status := { s.status with err := true, errSticky := true, errcode := .sequenceError } }) ∧
    (s.status.bReady = false → exec .bStep s = .next { s with
      status := { s.status with err := true, errSticky := true, errcode := .sequenceError } })

/-- R120, R125, R128: `A_ADVANCE` (on a seeded state) with `UPPER_LIMIT = 0`, `A_GENERATE` with `COUNT = 0`, `COUNT > OUT_CAPACITY` or
`UPPER_LIMIT = 0`, and `B_GENERATE` with `COUNT = 0` or `COUNT > OUT_CAPACITY` raise `INVALID_ARGUMENT`; the generate commands leave
`OUT_COUNT` 0, and nothing else changes. -/
def Obligations.InvalidArgumentOnBadOperands : Prop :=
  ∀ s : State,
    (s.status.aSeeded = true → s.upperLimit = 0 → exec .aAdvance s = .next { s with
      status := { s.status with err := true, errSticky := true, errcode := .invalidArgument } }) ∧
    (s.count = 0 ∨ Config.params.outCapacity < s.count.toNat ∨ s.upperLimit = 0 → exec .aGenerate s = .next { s with
      outCount := 0
      status := { s.status with err := true, errSticky := true, errcode := .invalidArgument } }) ∧
    (s.count = 0 ∨ Config.params.outCapacity < s.count.toNat → exec .bGenerate s = .next { s with
      outCount := 0
      status := { s.status with err := true, errSticky := true, errcode := .invalidArgument } })

/-- R116: every command ends in one of two ways: it completes with `ERR = 0` and `ERRCODE = 0`, or it ends with one error, `ERR = 1` and
`ERRCODE` the error's code, which is not 0. -/
def Obligations.EveryCommandCompletesOrRecordsAnError : Prop :=
  ∀ (i : Instr) (s : State), ∃ t, exec i s = .next t ∧
    ((t.status.err = false ∧ t.status.errcode.bits = 0) ∨ (t.status.err = true ∧ t.status.errcode.bits ≠ 0))

/-- R52: which flags each command writes, and which error codes it may end with. -/
def Obligations.FlagsWrittenByEachCommand : Prop :=
  ∀ (i : Instr) (s t : State), exec i s = .next t →
    t.status.errSticky = (s.status.errSticky || t.status.err) ∧
    (match i with
     | .aLoadSeed => t.status.errcode = .none ∧ t.status.fallback = false ∧ t.status.aSeeded = true ∧
         t.status.bReady = s.status.bReady
     | .aDerive => t.status.errcode = .none ∧ t.status.aSeeded = true ∧ t.status.bReady = s.status.bReady
     | .aAdvance =>
       (t.status.errcode = .none ∨ t.status.errcode = .sequenceError ∨ t.status.errcode = .invalidArgument) ∧
         t.status.fallback = s.status.fallback ∧ t.status.aSeeded = s.status.aSeeded ∧ t.status.bReady = s.status.bReady
     | .aGenerate =>
       ((t.status.errcode = .none ∧ t.status.aSeeded = true) ∨
         (t.status.errcode = .invalidArgument ∧ t.status.fallback = s.status.fallback ∧ t.status.aSeeded = s.status.aSeeded)) ∧
         t.status.bReady = s.status.bReady
     | .bInit =>
       ((t.status.errcode = .none ∧ t.status.bReady = true) ∨ (t.status.errcode = .hashFailure ∧ t.status.bReady = false)) ∧
         t.status.fallback = s.status.fallback ∧ t.status.aSeeded = s.status.aSeeded
     | .bStep =>
       ((t.status.errcode = .none ∧ t.status.bReady = true) ∨
         (t.status.errcode = .sequenceError ∧ t.status.bReady = s.status.bReady) ∨
         ((t.status.errcode = .hashFailure ∨ t.status.errcode = .cipherFailure) ∧ t.status.bReady = false)) ∧
         t.status.fallback = s.status.fallback ∧ t.status.aSeeded = s.status.aSeeded
     | .bGenerate =>
       ((t.status.errcode = .none ∧ t.status.bReady = true) ∨
         (t.status.errcode = .invalidArgument ∧ t.status.bReady = s.status.bReady) ∨
         ((t.status.errcode = .hashFailure ∨ t.status.errcode = .cipherFailure) ∧ t.status.bReady = false)) ∧
         t.status.fallback = s.status.fallback ∧ t.status.aSeeded = s.status.aSeeded)

/-- R31 to R33, R43 to R45: no command writes `COUNT`, `UPPER_LIMIT`, `SEED_IN`, `AKEY`, `AIV` or `BMAT`. That no command writes `BUSY` is
the model's, deduced from R24 (log 11); nor do commands write the model's own fields for the host's list, the values read and the draw of
the last reset (log 4, log 6). -/
def Obligations.CommandsKeepTheInputRegisters : Prop :=
  ∀ (i : Instr) (s t : State), exec i s = .next t →
    t.count = s.count ∧ t.upperLimit = s.upperLimit ∧ t.seedIn = s.seedIn ∧ t.akey = s.akey ∧ t.aiv = s.aiv ∧ t.bmat = s.bmat ∧
      t.status.busy = s.status.busy ∧ t.pending = s.pending ∧ t.reads = s.reads ∧ t.outDraw = s.outDraw

/-- R65, R36, R35: only `A_GENERATE` and `B_GENERATE` write `OUT` and `OUT_COUNT`, `OUT` only at indices below `COUNT`; only `A_ADVANCE`
writes `RESULT`. -/
def Obligations.OnlyGenerateWritesOut : Prop :=
  ∀ (i : Instr) (s t : State), exec i s = .next t →
    (∀ a, (i ≠ .aGenerate ∧ i ≠ .bGenerate) ∨ a < 0x1000 ∨ 0x1000 + 4 * s.count.toNat ≤ a →
      t.outByte Config.params a = s.outByte Config.params a) ∧
    (i ≠ .aGenerate → i ≠ .bGenerate → t.outCount = s.outCount) ∧
    (i = .aGenerate ∨ i = .bGenerate → t.outCount = if t.status.err then 0 else s.count) ∧
    (i ≠ .aAdvance → t.result = s.result)

/-- R51: no Mode A command reads or writes the Mode B state and no Mode B command reads or writes the Mode A state. Not written: the other
mode's state is as before. Not read: from two states that differ only in the other mode's state, a command leaves its own mode's state and
the shared state equal. That the shared state holds the draws, and that two runs with equal draws that fail leave equal unspecified
values, is the model's choice (log 2, log 3, log 4). -/
def Obligations.ModesAreDisjoint : Prop :=
  (∀ (i : Instr) (s t : State), exec i s = .next t →
    (isModeA i = true → t.modeB = s.modeB) ∧ (isModeA i = false → t.modeA = s.modeA)) ∧
  (∀ (i : Instr) (s s' t t' : State), s.shared = s'.shared → exec i s = .next t → exec i s' = .next t' →
    (isModeA i = true → s.modeA = s'.modeA → t.modeA = t'.modeA ∧ t.shared = t'.shared) ∧
    (isModeA i = false → s.modeB = s'.modeB → t.modeB = t'.modeB ∧ t.shared = t'.shared))

/-! ### Every step -/

/-- Every step keeps the invariant of the machine, in every state that meets it (its clause on draws is the model's own, log 4). -/
def Obligations.StepKeepsInvariant : Prop := ∀ s t : State, Inv Config.params s → step s = .next t → Inv Config.params t

/-- R26, R28: only reset clears `ERR_STICKY` and `A_SEEDED`. -/
def Obligations.OnlyResetClearsStickyAndSeeded : Prop :=
  ∀ s t : State, step s = .next t → (∀ rest, s.pending ≠ .reset :: rest) →
    (s.status.errSticky = true → t.status.errSticky = true) ∧ (s.status.aSeeded = true → t.status.aSeeded = true)

/-- R139: what the source's call returns is read from `STATUS`, `OUT_COUNT` and `OUT`: the sequence where `ERR = 0`, the kind of error for
codes 3, 4 and 5; a Mode A primitive failure is a success with `FALLBACK = 1`; the other codes do not arise. -/
def Obligations.SourceResultIsReadFromStatus : Prop :=
  ∀ (i : Instr) (s t : State), i = .aGenerate ∨ i = .bGenerate → exec i s = .next t →
    (t.status.err = false → t.sourceResult Config.params = .ok ((List.range s.count.toNat).map (t.outWord Config.params))) ∧
    (t.status.errcode.bits = 3 → t.sourceResult Config.params = .invalidArgument) ∧
    (t.status.errcode.bits = 4 ∨ t.status.errcode.bits = 5 → t.sourceResult Config.params = .primitiveFailure) ∧
    (i = .aGenerate → t.status.err = false →
      t.status.fallback = (s.failsAt Config.params 0 || s.failsAt Config.params 1)) ∧
    t.sourceResult Config.params ≠ .noCounterpart
end

