-- ==== Sys2Proof/Laws/Bytes.lean ====
section
/-! SUPPORT. Laws of byte strings and little-endian words (R16, R62, R63). -/

namespace Sys2Proof.Machine

theorem byteAt_of_lt {n : Nat} (b : Bytes n) {i : Nat} (h : i < n) : byteAt b i = b[i] := by simp [byteAt, h]

@[simp] theorem byteAt_ofFn {n : Nat} (f : Fin n → Byte) {i : Nat} (h : i < n) : byteAt (Vector.ofFn f) i = f ⟨i, h⟩ := by
  simp [byteAt, h]

/-- Two byte strings with the same bytes are equal. -/
theorem bytes_ext {n : Nat} {a b : Bytes n} (h : ∀ i, i < n → byteAt a i = byteAt b i) : a = b := by
  refine Vector.ext fun i hi => ?_
  have := h i hi
  rwa [byteAt_of_lt a hi, byteAt_of_lt b hi] at this

@[simp] theorem byteAt_slice {n : Nat} (b : Bytes n) (lo len : Nat) {i : Nat} (h : i < len) :
    byteAt (slice b lo len) i = byteAt b (lo + i) := by simp [slice, h]

@[simp] theorem byteAt_leBytes32 (v : Word) {j : Nat} (h : j < 4) : byteAt (leBytes32 v) j = v.extractLsb' (8 * j) 8 := by
  simp [leBytes32, h]

@[simp] theorem byteAt_zeros (n i : Nat) : byteAt (zeros n) i = 0 := by
  unfold byteAt
  split <;> simp [zeros]

/-- `LE32` undoes `LEBYTES32` (R16). -/
@[simp] theorem le32_leBytes32 (v : Word) : le32 (leBytes32 v) = v := by
  apply BitVec.eq_of_toNat_eq
  have hv := v.isLt
  simp only [le32, byteAt_leBytes32, BitVec.toNat_ofNat, BitVec.extractLsb'_toNat, Nat.shiftRight_eq_div_pow,
    show 0 < 4 by omega, show 1 < 4 by omega, show 2 < 4 by omega, show 3 < 4 by omega]
  norm_num
  omega

/-- `LEBYTES32` undoes `LE32` (R16). -/
@[simp] theorem leBytes32_le32 (b : Bytes 4) : leBytes32 (le32 b) = b := by
  have h0 := (byteAt b 0).isLt
  have h1 := (byteAt b 1).isLt
  have h2 := (byteAt b 2).isLt
  have h3 := (byteAt b 3).isLt
  refine bytes_ext fun j hj => ?_
  rw [byteAt_leBytes32 _ hj]
  apply BitVec.eq_of_toNat_eq
  simp only [le32, BitVec.extractLsb'_toNat, BitVec.toNat_ofNat, Nat.shiftRight_eq_div_pow]
  have : j = 0 ∨ j = 1 ∨ j = 2 ∨ j = 3 := by omega
  rcases this with rfl | rfl | rfl | rfl <;> norm_num <;> omega

/-- Byte `j` of word `i` of a byte string is its byte `4*i + j` (R63). -/
@[simp] theorem byteAt_leBytes32_wordAt {n : Nat} (b : Bytes n) (i : Nat) {j : Nat} (h : j < 4) :
    byteAt (leBytes32 (wordAt b i)) j = byteAt b (4 * i + j) := by
  rw [wordAt, leBytes32_le32, byteAt_slice _ _ _ h]

/-- Writing a word of a byte string sets its 4 bytes and no other (R63). -/
theorem byteAt_setWordAt {n : Nat} (b : Bytes n) (i : Nat) (v : Word) {k : Nat} (h : k < n) :
    byteAt (setWordAt b i v) k = if k / 4 = i then v.extractLsb' (8 * (k % 4)) 8 else byteAt b k := by
  simp only [setWordAt, byteAt_ofFn _ h]
  split
  · rw [byteAt_leBytes32 _ (Nat.mod_lt _ (by omega))]
  · rfl

/-- The word just written is read back (R63). -/
theorem wordAt_setWordAt {n : Nat} (b : Bytes n) (i : Nat) (v : Word) (h : 4 * i + 3 < n) :
    wordAt (setWordAt b i v) i = v := by
  refine (congrArg le32 (bytes_ext fun j hj => ?_)).trans (le32_leBytes32 v)
  rw [byteAt_slice _ _ _ hj, byteAt_setWordAt _ _ _ (by omega), if_pos (by omega), byteAt_leBytes32 _ hj,
    show (4 * i + j) % 4 = j by omega]

/-- A word write leaves every other word of the byte string alone (R63). -/
theorem wordAt_setWordAt_of_ne {n : Nat} (b : Bytes n) {i i' : Nat} (v : Word) (h : 4 * i' + 3 < n) (hne : i' ≠ i) :
    wordAt (setWordAt b i v) i' = wordAt b i' := by
  rw [wordAt, wordAt]
  congr 1
  refine bytes_ext fun j hj => ?_
  rw [byteAt_slice _ _ _ hj, byteAt_slice _ _ _ hj, byteAt_setWordAt _ _ _ (by omega), if_neg (by omega)]

@[simp] theorem toNat_zext64 (v : Word) : (zext64 v).toNat = v.toNat := by
  have := v.isLt
  simp [zext64]
  omega

/-- The zero-extension of a seed (R88), as a number. -/
theorem zext64_eq (v : Word) : zext64 v = BitVec.ofNat 64 v.toNat := by
  apply BitVec.eq_of_toNat_eq
  have := v.isLt
  simp
  omega

end Sys2Proof.Machine
end

