-- ==== Sys2Proof/Laws/State.lean ====
section
/-! SUPPORT. One lemma per field of the state per named update of it (Machine/Ops.lean, Machine/ModeB.lean, Safety.lean), each true by
unfolding the update once, and the same for `STATUS`. No later proof unfolds a record update. -/

namespace Sys2Proof.Machine

variable (s : State) (st : Status)

/-! #### `State.beginCommand` -/

@[simp] theorem State.beginCommand_status : s.beginCommand.status = s.status.begun := rfl
@[simp] theorem State.beginCommand_count : s.beginCommand.count = s.count := rfl
@[simp] theorem State.beginCommand_upperLimit : s.beginCommand.upperLimit = s.upperLimit := rfl
@[simp] theorem State.beginCommand_seedIn : s.beginCommand.seedIn = s.seedIn := rfl
@[simp] theorem State.beginCommand_seedOut : s.beginCommand.seedOut = s.seedOut := rfl
@[simp] theorem State.beginCommand_result : s.beginCommand.result = s.result := rfl
@[simp] theorem State.beginCommand_outCount : s.beginCommand.outCount = s.outCount := rfl
@[simp] theorem State.beginCommand_lcgState : s.beginCommand.lcgState = s.lcgState := rfl
@[simp] theorem State.beginCommand_bCounter : s.beginCommand.bCounter = s.bCounter := rfl
@[simp] theorem State.beginCommand_bBytes : s.beginCommand.bBytes = s.bBytes := rfl
@[simp] theorem State.beginCommand_reseedCount : s.beginCommand.reseedCount = s.reseedCount := rfl
@[simp] theorem State.beginCommand_akey : s.beginCommand.akey = s.akey := rfl
@[simp] theorem State.beginCommand_aiv : s.beginCommand.aiv = s.aiv := rfl
@[simp] theorem State.beginCommand_bmat : s.beginCommand.bmat = s.bmat := rfl
@[simp] theorem State.beginCommand_roll : s.beginCommand.roll = s.roll := rfl
@[simp] theorem State.beginCommand_bkey : s.beginCommand.bkey = s.bkey := rfl
@[simp] theorem State.beginCommand_bnonce : s.beginCommand.bnonce = s.bnonce := rfl
@[simp] theorem State.beginCommand_out : s.beginCommand.out = s.out := rfl
@[simp] theorem State.beginCommand_outDraw : s.beginCommand.outDraw = s.outDraw := rfl
@[simp] theorem State.beginCommand_primDraws : s.beginCommand.primDraws = s.primDraws := rfl
@[simp] theorem State.beginCommand_draws : s.beginCommand.draws = s.draws := rfl
@[simp] theorem State.beginCommand_pending : s.beginCommand.pending = s.pending := rfl
@[simp] theorem State.beginCommand_reads : s.beginCommand.reads = s.reads := rfl

/-! #### `State.raise` -/

@[simp] theorem State.raise_status (c : ErrorCode) : (s.raise c).status = s.status.raised c := rfl
@[simp] theorem State.raise_count (c : ErrorCode) : (s.raise c).count = s.count := rfl
@[simp] theorem State.raise_upperLimit (c : ErrorCode) : (s.raise c).upperLimit = s.upperLimit := rfl
@[simp] theorem State.raise_seedIn (c : ErrorCode) : (s.raise c).seedIn = s.seedIn := rfl
@[simp] theorem State.raise_seedOut (c : ErrorCode) : (s.raise c).seedOut = s.seedOut := rfl
@[simp] theorem State.raise_result (c : ErrorCode) : (s.raise c).result = s.result := rfl
@[simp] theorem State.raise_outCount (c : ErrorCode) : (s.raise c).outCount = s.outCount := rfl
@[simp] theorem State.raise_lcgState (c : ErrorCode) : (s.raise c).lcgState = s.lcgState := rfl
@[simp] theorem State.raise_bCounter (c : ErrorCode) : (s.raise c).bCounter = s.bCounter := rfl
@[simp] theorem State.raise_bBytes (c : ErrorCode) : (s.raise c).bBytes = s.bBytes := rfl
@[simp] theorem State.raise_reseedCount (c : ErrorCode) : (s.raise c).reseedCount = s.reseedCount := rfl
@[simp] theorem State.raise_akey (c : ErrorCode) : (s.raise c).akey = s.akey := rfl
@[simp] theorem State.raise_aiv (c : ErrorCode) : (s.raise c).aiv = s.aiv := rfl
@[simp] theorem State.raise_bmat (c : ErrorCode) : (s.raise c).bmat = s.bmat := rfl
@[simp] theorem State.raise_roll (c : ErrorCode) : (s.raise c).roll = s.roll := rfl
@[simp] theorem State.raise_bkey (c : ErrorCode) : (s.raise c).bkey = s.bkey := rfl
@[simp] theorem State.raise_bnonce (c : ErrorCode) : (s.raise c).bnonce = s.bnonce := rfl
@[simp] theorem State.raise_out (c : ErrorCode) : (s.raise c).out = s.out := rfl
@[simp] theorem State.raise_outDraw (c : ErrorCode) : (s.raise c).outDraw = s.outDraw := rfl
@[simp] theorem State.raise_primDraws (c : ErrorCode) : (s.raise c).primDraws = s.primDraws := rfl
@[simp] theorem State.raise_draws (c : ErrorCode) : (s.raise c).draws = s.draws := rfl
@[simp] theorem State.raise_pending (c : ErrorCode) : (s.raise c).pending = s.pending := rfl
@[simp] theorem State.raise_reads (c : ErrorCode) : (s.raise c).reads = s.reads := rfl

/-! #### `State.setOutCount` -/

@[simp] theorem State.setOutCount_status (v : Word) : (s.setOutCount v).status = s.status := rfl
@[simp] theorem State.setOutCount_count (v : Word) : (s.setOutCount v).count = s.count := rfl
@[simp] theorem State.setOutCount_upperLimit (v : Word) : (s.setOutCount v).upperLimit = s.upperLimit := rfl
@[simp] theorem State.setOutCount_seedIn (v : Word) : (s.setOutCount v).seedIn = s.seedIn := rfl
@[simp] theorem State.setOutCount_seedOut (v : Word) : (s.setOutCount v).seedOut = s.seedOut := rfl
@[simp] theorem State.setOutCount_result (v : Word) : (s.setOutCount v).result = s.result := rfl
@[simp] theorem State.setOutCount_outCount (v : Word) : (s.setOutCount v).outCount = v := rfl
@[simp] theorem State.setOutCount_lcgState (v : Word) : (s.setOutCount v).lcgState = s.lcgState := rfl
@[simp] theorem State.setOutCount_bCounter (v : Word) : (s.setOutCount v).bCounter = s.bCounter := rfl
@[simp] theorem State.setOutCount_bBytes (v : Word) : (s.setOutCount v).bBytes = s.bBytes := rfl
@[simp] theorem State.setOutCount_reseedCount (v : Word) : (s.setOutCount v).reseedCount = s.reseedCount := rfl
@[simp] theorem State.setOutCount_akey (v : Word) : (s.setOutCount v).akey = s.akey := rfl
@[simp] theorem State.setOutCount_aiv (v : Word) : (s.setOutCount v).aiv = s.aiv := rfl
@[simp] theorem State.setOutCount_bmat (v : Word) : (s.setOutCount v).bmat = s.bmat := rfl
@[simp] theorem State.setOutCount_roll (v : Word) : (s.setOutCount v).roll = s.roll := rfl
@[simp] theorem State.setOutCount_bkey (v : Word) : (s.setOutCount v).bkey = s.bkey := rfl
@[simp] theorem State.setOutCount_bnonce (v : Word) : (s.setOutCount v).bnonce = s.bnonce := rfl
@[simp] theorem State.setOutCount_out (v : Word) : (s.setOutCount v).out = s.out := rfl
@[simp] theorem State.setOutCount_outDraw (v : Word) : (s.setOutCount v).outDraw = s.outDraw := rfl
@[simp] theorem State.setOutCount_primDraws (v : Word) : (s.setOutCount v).primDraws = s.primDraws := rfl
@[simp] theorem State.setOutCount_draws (v : Word) : (s.setOutCount v).draws = s.draws := rfl
@[simp] theorem State.setOutCount_pending (v : Word) : (s.setOutCount v).pending = s.pending := rfl
@[simp] theorem State.setOutCount_reads (v : Word) : (s.setOutCount v).reads = s.reads := rfl

/-! #### `State.seeded` -/

@[simp] theorem State.seeded_status (l : DWord) (sd : Word) (fb : Bool) : (s.seeded l sd fb).status = s.status.seeded fb := rfl
@[simp] theorem State.seeded_count (l : DWord) (sd : Word) (fb : Bool) : (s.seeded l sd fb).count = s.count := rfl
@[simp] theorem State.seeded_upperLimit (l : DWord) (sd : Word) (fb : Bool) : (s.seeded l sd fb).upperLimit = s.upperLimit := rfl
@[simp] theorem State.seeded_seedIn (l : DWord) (sd : Word) (fb : Bool) : (s.seeded l sd fb).seedIn = s.seedIn := rfl
@[simp] theorem State.seeded_seedOut (l : DWord) (sd : Word) (fb : Bool) : (s.seeded l sd fb).seedOut = sd := rfl
@[simp] theorem State.seeded_result (l : DWord) (sd : Word) (fb : Bool) : (s.seeded l sd fb).result = s.result := rfl
@[simp] theorem State.seeded_outCount (l : DWord) (sd : Word) (fb : Bool) : (s.seeded l sd fb).outCount = s.outCount := rfl
@[simp] theorem State.seeded_lcgState (l : DWord) (sd : Word) (fb : Bool) : (s.seeded l sd fb).lcgState = l := rfl
@[simp] theorem State.seeded_bCounter (l : DWord) (sd : Word) (fb : Bool) : (s.seeded l sd fb).bCounter = s.bCounter := rfl
@[simp] theorem State.seeded_bBytes (l : DWord) (sd : Word) (fb : Bool) : (s.seeded l sd fb).bBytes = s.bBytes := rfl
@[simp] theorem State.seeded_reseedCount (l : DWord) (sd : Word) (fb : Bool) : (s.seeded l sd fb).reseedCount = s.reseedCount := rfl
@[simp] theorem State.seeded_akey (l : DWord) (sd : Word) (fb : Bool) : (s.seeded l sd fb).akey = s.akey := rfl
@[simp] theorem State.seeded_aiv (l : DWord) (sd : Word) (fb : Bool) : (s.seeded l sd fb).aiv = s.aiv := rfl
@[simp] theorem State.seeded_bmat (l : DWord) (sd : Word) (fb : Bool) : (s.seeded l sd fb).bmat = s.bmat := rfl
@[simp] theorem State.seeded_roll (l : DWord) (sd : Word) (fb : Bool) : (s.seeded l sd fb).roll = s.roll := rfl
@[simp] theorem State.seeded_bkey (l : DWord) (sd : Word) (fb : Bool) : (s.seeded l sd fb).bkey = s.bkey := rfl
@[simp] theorem State.seeded_bnonce (l : DWord) (sd : Word) (fb : Bool) : (s.seeded l sd fb).bnonce = s.bnonce := rfl
@[simp] theorem State.seeded_out (l : DWord) (sd : Word) (fb : Bool) : (s.seeded l sd fb).out = s.out := rfl
@[simp] theorem State.seeded_outDraw (l : DWord) (sd : Word) (fb : Bool) : (s.seeded l sd fb).outDraw = s.outDraw := rfl
@[simp] theorem State.seeded_primDraws (l : DWord) (sd : Word) (fb : Bool) : (s.seeded l sd fb).primDraws = s.primDraws := rfl
@[simp] theorem State.seeded_draws (l : DWord) (sd : Word) (fb : Bool) : (s.seeded l sd fb).draws = s.draws := rfl
@[simp] theorem State.seeded_pending (l : DWord) (sd : Word) (fb : Bool) : (s.seeded l sd fb).pending = s.pending := rfl
@[simp] theorem State.seeded_reads (l : DWord) (sd : Word) (fb : Bool) : (s.seeded l sd fb).reads = s.reads := rfl

/-! #### `State.setReady` -/

@[simp] theorem State.setReady_status (b : Bool) : (s.setReady b).status = s.status.withReady b := rfl
@[simp] theorem State.setReady_count (b : Bool) : (s.setReady b).count = s.count := rfl
@[simp] theorem State.setReady_upperLimit (b : Bool) : (s.setReady b).upperLimit = s.upperLimit := rfl
@[simp] theorem State.setReady_seedIn (b : Bool) : (s.setReady b).seedIn = s.seedIn := rfl
@[simp] theorem State.setReady_seedOut (b : Bool) : (s.setReady b).seedOut = s.seedOut := rfl
@[simp] theorem State.setReady_result (b : Bool) : (s.setReady b).result = s.result := rfl
@[simp] theorem State.setReady_outCount (b : Bool) : (s.setReady b).outCount = s.outCount := rfl
@[simp] theorem State.setReady_lcgState (b : Bool) : (s.setReady b).lcgState = s.lcgState := rfl
@[simp] theorem State.setReady_bCounter (b : Bool) : (s.setReady b).bCounter = s.bCounter := rfl
@[simp] theorem State.setReady_bBytes (b : Bool) : (s.setReady b).bBytes = s.bBytes := rfl
@[simp] theorem State.setReady_reseedCount (b : Bool) : (s.setReady b).reseedCount = s.reseedCount := rfl
@[simp] theorem State.setReady_akey (b : Bool) : (s.setReady b).akey = s.akey := rfl
@[simp] theorem State.setReady_aiv (b : Bool) : (s.setReady b).aiv = s.aiv := rfl
@[simp] theorem State.setReady_bmat (b : Bool) : (s.setReady b).bmat = s.bmat := rfl
@[simp] theorem State.setReady_roll (b : Bool) : (s.setReady b).roll = s.roll := rfl
@[simp] theorem State.setReady_bkey (b : Bool) : (s.setReady b).bkey = s.bkey := rfl
@[simp] theorem State.setReady_bnonce (b : Bool) : (s.setReady b).bnonce = s.bnonce := rfl
@[simp] theorem State.setReady_out (b : Bool) : (s.setReady b).out = s.out := rfl
@[simp] theorem State.setReady_outDraw (b : Bool) : (s.setReady b).outDraw = s.outDraw := rfl
@[simp] theorem State.setReady_primDraws (b : Bool) : (s.setReady b).primDraws = s.primDraws := rfl
@[simp] theorem State.setReady_draws (b : Bool) : (s.setReady b).draws = s.draws := rfl
@[simp] theorem State.setReady_pending (b : Bool) : (s.setReady b).pending = s.pending := rfl
@[simp] theorem State.setReady_reads (b : Bool) : (s.setReady b).reads = s.reads := rfl

/-! #### `State.setOut` -/

@[simp] theorem State.setOut_status (m : Memory) : (s.setOut m).status = s.status := rfl
@[simp] theorem State.setOut_count (m : Memory) : (s.setOut m).count = s.count := rfl
@[simp] theorem State.setOut_upperLimit (m : Memory) : (s.setOut m).upperLimit = s.upperLimit := rfl
@[simp] theorem State.setOut_seedIn (m : Memory) : (s.setOut m).seedIn = s.seedIn := rfl
@[simp] theorem State.setOut_seedOut (m : Memory) : (s.setOut m).seedOut = s.seedOut := rfl
@[simp] theorem State.setOut_result (m : Memory) : (s.setOut m).result = s.result := rfl
@[simp] theorem State.setOut_outCount (m : Memory) : (s.setOut m).outCount = s.outCount := rfl
@[simp] theorem State.setOut_lcgState (m : Memory) : (s.setOut m).lcgState = s.lcgState := rfl
@[simp] theorem State.setOut_bCounter (m : Memory) : (s.setOut m).bCounter = s.bCounter := rfl
@[simp] theorem State.setOut_bBytes (m : Memory) : (s.setOut m).bBytes = s.bBytes := rfl
@[simp] theorem State.setOut_reseedCount (m : Memory) : (s.setOut m).reseedCount = s.reseedCount := rfl
@[simp] theorem State.setOut_akey (m : Memory) : (s.setOut m).akey = s.akey := rfl
@[simp] theorem State.setOut_aiv (m : Memory) : (s.setOut m).aiv = s.aiv := rfl
@[simp] theorem State.setOut_bmat (m : Memory) : (s.setOut m).bmat = s.bmat := rfl
@[simp] theorem State.setOut_roll (m : Memory) : (s.setOut m).roll = s.roll := rfl
@[simp] theorem State.setOut_bkey (m : Memory) : (s.setOut m).bkey = s.bkey := rfl
@[simp] theorem State.setOut_bnonce (m : Memory) : (s.setOut m).bnonce = s.bnonce := rfl
@[simp] theorem State.setOut_out (m : Memory) : (s.setOut m).out = m := rfl
@[simp] theorem State.setOut_outDraw (m : Memory) : (s.setOut m).outDraw = s.outDraw := rfl
@[simp] theorem State.setOut_primDraws (m : Memory) : (s.setOut m).primDraws = s.primDraws := rfl
@[simp] theorem State.setOut_draws (m : Memory) : (s.setOut m).draws = s.draws := rfl
@[simp] theorem State.setOut_pending (m : Memory) : (s.setOut m).pending = s.pending := rfl
@[simp] theorem State.setOut_reads (m : Memory) : (s.setOut m).reads = s.reads := rfl
@[simp] theorem State.setOut_stream (m : Memory) : (s.setOut m).stream = s.stream := rfl
@[simp] theorem State.setOut_setOut (m m' : Memory) : (s.setOut m).setOut m' = s.setOut m' := rfl
@[simp] theorem State.setOut_out_self : s.setOut s.out = s := rfl

/-! #### `State.writeOut` -/

@[simp] theorem State.writeOut_status (i : Nat) (v : Word) : (s.writeOut i v).status = s.status := rfl
@[simp] theorem State.writeOut_count (i : Nat) (v : Word) : (s.writeOut i v).count = s.count := rfl
@[simp] theorem State.writeOut_upperLimit (i : Nat) (v : Word) : (s.writeOut i v).upperLimit = s.upperLimit := rfl
@[simp] theorem State.writeOut_seedIn (i : Nat) (v : Word) : (s.writeOut i v).seedIn = s.seedIn := rfl
@[simp] theorem State.writeOut_seedOut (i : Nat) (v : Word) : (s.writeOut i v).seedOut = s.seedOut := rfl
@[simp] theorem State.writeOut_result (i : Nat) (v : Word) : (s.writeOut i v).result = s.result := rfl
@[simp] theorem State.writeOut_outCount (i : Nat) (v : Word) : (s.writeOut i v).outCount = s.outCount := rfl
@[simp] theorem State.writeOut_lcgState (i : Nat) (v : Word) : (s.writeOut i v).lcgState = s.lcgState := rfl
@[simp] theorem State.writeOut_bCounter (i : Nat) (v : Word) : (s.writeOut i v).bCounter = s.bCounter := rfl
@[simp] theorem State.writeOut_bBytes (i : Nat) (v : Word) : (s.writeOut i v).bBytes = s.bBytes := rfl
@[simp] theorem State.writeOut_reseedCount (i : Nat) (v : Word) : (s.writeOut i v).reseedCount = s.reseedCount := rfl
@[simp] theorem State.writeOut_akey (i : Nat) (v : Word) : (s.writeOut i v).akey = s.akey := rfl
@[simp] theorem State.writeOut_aiv (i : Nat) (v : Word) : (s.writeOut i v).aiv = s.aiv := rfl
@[simp] theorem State.writeOut_bmat (i : Nat) (v : Word) : (s.writeOut i v).bmat = s.bmat := rfl
@[simp] theorem State.writeOut_roll (i : Nat) (v : Word) : (s.writeOut i v).roll = s.roll := rfl
@[simp] theorem State.writeOut_bkey (i : Nat) (v : Word) : (s.writeOut i v).bkey = s.bkey := rfl
@[simp] theorem State.writeOut_bnonce (i : Nat) (v : Word) : (s.writeOut i v).bnonce = s.bnonce := rfl
@[simp] theorem State.writeOut_out (i : Nat) (v : Word) : (s.writeOut i v).out = Memory.writeWord s.out (outAddr i) v := rfl
@[simp] theorem State.writeOut_outDraw (i : Nat) (v : Word) : (s.writeOut i v).outDraw = s.outDraw := rfl
@[simp] theorem State.writeOut_primDraws (i : Nat) (v : Word) : (s.writeOut i v).primDraws = s.primDraws := rfl
@[simp] theorem State.writeOut_draws (i : Nat) (v : Word) : (s.writeOut i v).draws = s.draws := rfl
@[simp] theorem State.writeOut_pending (i : Nat) (v : Word) : (s.writeOut i v).pending = s.pending := rfl
@[simp] theorem State.writeOut_reads (i : Nat) (v : Word) : (s.writeOut i v).reads = s.reads := rfl

/-! #### `State.drawn` -/

@[simp] theorem State.drawn_status : s.drawn.status = s.status := rfl
@[simp] theorem State.drawn_count : s.drawn.count = s.count := rfl
@[simp] theorem State.drawn_upperLimit : s.drawn.upperLimit = s.upperLimit := rfl
@[simp] theorem State.drawn_seedIn : s.drawn.seedIn = s.seedIn := rfl
@[simp] theorem State.drawn_seedOut : s.drawn.seedOut = s.seedOut := rfl
@[simp] theorem State.drawn_result : s.drawn.result = s.result := rfl
@[simp] theorem State.drawn_outCount : s.drawn.outCount = s.outCount := rfl
@[simp] theorem State.drawn_lcgState : s.drawn.lcgState = s.lcgState := rfl
@[simp] theorem State.drawn_bCounter : s.drawn.bCounter = s.bCounter := rfl
@[simp] theorem State.drawn_bBytes : s.drawn.bBytes = s.bBytes := rfl
@[simp] theorem State.drawn_reseedCount : s.drawn.reseedCount = s.reseedCount := rfl
@[simp] theorem State.drawn_akey : s.drawn.akey = s.akey := rfl
@[simp] theorem State.drawn_aiv : s.drawn.aiv = s.aiv := rfl
@[simp] theorem State.drawn_bmat : s.drawn.bmat = s.bmat := rfl
@[simp] theorem State.drawn_roll : s.drawn.roll = s.roll := rfl
@[simp] theorem State.drawn_bkey : s.drawn.bkey = s.bkey := rfl
@[simp] theorem State.drawn_bnonce : s.drawn.bnonce = s.bnonce := rfl
@[simp] theorem State.drawn_out : s.drawn.out = s.out := rfl
@[simp] theorem State.drawn_outDraw : s.drawn.outDraw = s.outDraw := rfl
@[simp] theorem State.drawn_primDraws : s.drawn.primDraws = s.primDraws.tail := rfl
@[simp] theorem State.drawn_draws : s.drawn.draws = s.draws + 1 := rfl
@[simp] theorem State.drawn_pending : s.drawn.pending = s.pending := rfl
@[simp] theorem State.drawn_reads : s.drawn.reads = s.reads := rfl

/-! #### `State.afterDraws` -/

@[simp] theorem State.afterDraws_status (k : Nat) : (s.afterDraws k).status = s.status := rfl
@[simp] theorem State.afterDraws_count (k : Nat) : (s.afterDraws k).count = s.count := rfl
@[simp] theorem State.afterDraws_upperLimit (k : Nat) : (s.afterDraws k).upperLimit = s.upperLimit := rfl
@[simp] theorem State.afterDraws_seedIn (k : Nat) : (s.afterDraws k).seedIn = s.seedIn := rfl
@[simp] theorem State.afterDraws_seedOut (k : Nat) : (s.afterDraws k).seedOut = s.seedOut := rfl
@[simp] theorem State.afterDraws_result (k : Nat) : (s.afterDraws k).result = s.result := rfl
@[simp] theorem State.afterDraws_outCount (k : Nat) : (s.afterDraws k).outCount = s.outCount := rfl
@[simp] theorem State.afterDraws_lcgState (k : Nat) : (s.afterDraws k).lcgState = s.lcgState := rfl
@[simp] theorem State.afterDraws_bCounter (k : Nat) : (s.afterDraws k).bCounter = s.bCounter := rfl
@[simp] theorem State.afterDraws_bBytes (k : Nat) : (s.afterDraws k).bBytes = s.bBytes := rfl
@[simp] theorem State.afterDraws_reseedCount (k : Nat) : (s.afterDraws k).reseedCount = s.reseedCount := rfl
@[simp] theorem State.afterDraws_akey (k : Nat) : (s.afterDraws k).akey = s.akey := rfl
@[simp] theorem State.afterDraws_aiv (k : Nat) : (s.afterDraws k).aiv = s.aiv := rfl
@[simp] theorem State.afterDraws_bmat (k : Nat) : (s.afterDraws k).bmat = s.bmat := rfl
@[simp] theorem State.afterDraws_roll (k : Nat) : (s.afterDraws k).roll = s.roll := rfl
@[simp] theorem State.afterDraws_bkey (k : Nat) : (s.afterDraws k).bkey = s.bkey := rfl
@[simp] theorem State.afterDraws_bnonce (k : Nat) : (s.afterDraws k).bnonce = s.bnonce := rfl
@[simp] theorem State.afterDraws_out (k : Nat) : (s.afterDraws k).out = s.out := rfl
@[simp] theorem State.afterDraws_outDraw (k : Nat) : (s.afterDraws k).outDraw = s.outDraw := rfl
@[simp] theorem State.afterDraws_primDraws (k : Nat) : (s.afterDraws k).primDraws = s.primDraws.drop k := rfl
@[simp] theorem State.afterDraws_draws (k : Nat) : (s.afterDraws k).draws = s.draws + k := rfl
@[simp] theorem State.afterDraws_pending (k : Nat) : (s.afterDraws k).pending = s.pending := rfl
@[simp] theorem State.afterDraws_reads (k : Nat) : (s.afterDraws k).reads = s.reads := rfl

/-! #### `State.rekey` -/

@[simp] theorem State.rekey_status (d : Bytes 48) : (s.rekey d).status = s.status := rfl
@[simp] theorem State.rekey_count (d : Bytes 48) : (s.rekey d).count = s.count := rfl
@[simp] theorem State.rekey_upperLimit (d : Bytes 48) : (s.rekey d).upperLimit = s.upperLimit := rfl
@[simp] theorem State.rekey_seedIn (d : Bytes 48) : (s.rekey d).seedIn = s.seedIn := rfl
@[simp] theorem State.rekey_seedOut (d : Bytes 48) : (s.rekey d).seedOut = s.seedOut := rfl
@[simp] theorem State.rekey_result (d : Bytes 48) : (s.rekey d).result = s.result := rfl
@[simp] theorem State.rekey_outCount (d : Bytes 48) : (s.rekey d).outCount = s.outCount := rfl
@[simp] theorem State.rekey_lcgState (d : Bytes 48) : (s.rekey d).lcgState = s.lcgState := rfl
@[simp] theorem State.rekey_bCounter (d : Bytes 48) : (s.rekey d).bCounter = digestCounter d := rfl
@[simp] theorem State.rekey_bBytes (d : Bytes 48) : (s.rekey d).bBytes = 0 := rfl
@[simp] theorem State.rekey_reseedCount (d : Bytes 48) : (s.rekey d).reseedCount = s.reseedCount := rfl
@[simp] theorem State.rekey_akey (d : Bytes 48) : (s.rekey d).akey = s.akey := rfl
@[simp] theorem State.rekey_aiv (d : Bytes 48) : (s.rekey d).aiv = s.aiv := rfl
@[simp] theorem State.rekey_bmat (d : Bytes 48) : (s.rekey d).bmat = s.bmat := rfl
@[simp] theorem State.rekey_roll (d : Bytes 48) : (s.rekey d).roll = s.roll := rfl
@[simp] theorem State.rekey_bkey (d : Bytes 48) : (s.rekey d).bkey = digestKey d := rfl
@[simp] theorem State.rekey_bnonce (d : Bytes 48) : (s.rekey d).bnonce = digestNonce d := rfl
@[simp] theorem State.rekey_out (d : Bytes 48) : (s.rekey d).out = s.out := rfl
@[simp] theorem State.rekey_outDraw (d : Bytes 48) : (s.rekey d).outDraw = s.outDraw := rfl
@[simp] theorem State.rekey_primDraws (d : Bytes 48) : (s.rekey d).primDraws = s.primDraws := rfl
@[simp] theorem State.rekey_draws (d : Bytes 48) : (s.rekey d).draws = s.draws := rfl
@[simp] theorem State.rekey_pending (d : Bytes 48) : (s.rekey d).pending = s.pending := rfl
@[simp] theorem State.rekey_reads (d : Bytes 48) : (s.rekey d).reads = s.reads := rfl

/-! #### `State.recordRead` -/

@[simp] theorem State.recordRead_status (v : Word) : (s.recordRead v).status = s.status := rfl
@[simp] theorem State.recordRead_count (v : Word) : (s.recordRead v).count = s.count := rfl
@[simp] theorem State.recordRead_upperLimit (v : Word) : (s.recordRead v).upperLimit = s.upperLimit := rfl
@[simp] theorem State.recordRead_seedIn (v : Word) : (s.recordRead v).seedIn = s.seedIn := rfl
@[simp] theorem State.recordRead_seedOut (v : Word) : (s.recordRead v).seedOut = s.seedOut := rfl
@[simp] theorem State.recordRead_result (v : Word) : (s.recordRead v).result = s.result := rfl
@[simp] theorem State.recordRead_outCount (v : Word) : (s.recordRead v).outCount = s.outCount := rfl
@[simp] theorem State.recordRead_lcgState (v : Word) : (s.recordRead v).lcgState = s.lcgState := rfl
@[simp] theorem State.recordRead_bCounter (v : Word) : (s.recordRead v).bCounter = s.bCounter := rfl
@[simp] theorem State.recordRead_bBytes (v : Word) : (s.recordRead v).bBytes = s.bBytes := rfl
@[simp] theorem State.recordRead_reseedCount (v : Word) : (s.recordRead v).reseedCount = s.reseedCount := rfl
@[simp] theorem State.recordRead_akey (v : Word) : (s.recordRead v).akey = s.akey := rfl
@[simp] theorem State.recordRead_aiv (v : Word) : (s.recordRead v).aiv = s.aiv := rfl
@[simp] theorem State.recordRead_bmat (v : Word) : (s.recordRead v).bmat = s.bmat := rfl
@[simp] theorem State.recordRead_roll (v : Word) : (s.recordRead v).roll = s.roll := rfl
@[simp] theorem State.recordRead_bkey (v : Word) : (s.recordRead v).bkey = s.bkey := rfl
@[simp] theorem State.recordRead_bnonce (v : Word) : (s.recordRead v).bnonce = s.bnonce := rfl
@[simp] theorem State.recordRead_out (v : Word) : (s.recordRead v).out = s.out := rfl
@[simp] theorem State.recordRead_outDraw (v : Word) : (s.recordRead v).outDraw = s.outDraw := rfl
@[simp] theorem State.recordRead_primDraws (v : Word) : (s.recordRead v).primDraws = s.primDraws := rfl
@[simp] theorem State.recordRead_draws (v : Word) : (s.recordRead v).draws = s.draws := rfl
@[simp] theorem State.recordRead_pending (v : Word) : (s.recordRead v).pending = s.pending := rfl
@[simp] theorem State.recordRead_reads (v : Word) : (s.recordRead v).reads = s.reads ++ [v] := rfl

/-! #### `State.scrambleStream` -/

@[simp] theorem State.scrambleStream_status (P : Params) : (s.scrambleStream P).status = s.status := rfl
@[simp] theorem State.scrambleStream_count (P : Params) : (s.scrambleStream P).count = s.count := rfl
@[simp] theorem State.scrambleStream_upperLimit (P : Params) : (s.scrambleStream P).upperLimit = s.upperLimit := rfl
@[simp] theorem State.scrambleStream_seedIn (P : Params) : (s.scrambleStream P).seedIn = s.seedIn := rfl
@[simp] theorem State.scrambleStream_seedOut (P : Params) : (s.scrambleStream P).seedOut = s.seedOut := rfl
@[simp] theorem State.scrambleStream_result (P : Params) : (s.scrambleStream P).result = s.result := rfl
@[simp] theorem State.scrambleStream_outCount (P : Params) : (s.scrambleStream P).outCount = s.outCount := rfl
@[simp] theorem State.scrambleStream_lcgState (P : Params) : (s.scrambleStream P).lcgState = s.lcgState := rfl
@[simp] theorem State.scrambleStream_bCounter (P : Params) : (s.scrambleStream P).bCounter = unspecifiedWord P s.draws 0x028 := rfl
@[simp] theorem State.scrambleStream_bBytes (P : Params) : (s.scrambleStream P).bBytes = unspecifiedWord P s.draws 0x02C := rfl
@[simp] theorem State.scrambleStream_reseedCount (P : Params) : (s.scrambleStream P).reseedCount = unspecifiedWord P s.draws 0x030 := rfl
@[simp] theorem State.scrambleStream_akey (P : Params) : (s.scrambleStream P).akey = s.akey := rfl
@[simp] theorem State.scrambleStream_aiv (P : Params) : (s.scrambleStream P).aiv = s.aiv := rfl
@[simp] theorem State.scrambleStream_bmat (P : Params) : (s.scrambleStream P).bmat = s.bmat := rfl
@[simp] theorem State.scrambleStream_roll (P : Params) : (s.scrambleStream P).roll = unspecifiedBytes P s.draws 0x0C0 64 := rfl
@[simp] theorem State.scrambleStream_bkey (P : Params) : (s.scrambleStream P).bkey = unspecifiedBytes P s.draws 0x100 32 := rfl
@[simp] theorem State.scrambleStream_bnonce (P : Params) : (s.scrambleStream P).bnonce = unspecifiedBytes P s.draws 0x120 12 := rfl
@[simp] theorem State.scrambleStream_out (P : Params) : (s.scrambleStream P).out = s.out := rfl
@[simp] theorem State.scrambleStream_outDraw (P : Params) : (s.scrambleStream P).outDraw = s.outDraw := rfl
@[simp] theorem State.scrambleStream_primDraws (P : Params) : (s.scrambleStream P).primDraws = s.primDraws := rfl
@[simp] theorem State.scrambleStream_draws (P : Params) : (s.scrambleStream P).draws = s.draws := rfl
@[simp] theorem State.scrambleStream_pending (P : Params) : (s.scrambleStream P).pending = s.pending := rfl
@[simp] theorem State.scrambleStream_reads (P : Params) : (s.scrambleStream P).reads = s.reads := rfl

/-! #### `State.withStream` -/

@[simp] theorem State.withStream_status (x : Stream) : (s.withStream x).status = s.status := rfl
@[simp] theorem State.withStream_count (x : Stream) : (s.withStream x).count = s.count := rfl
@[simp] theorem State.withStream_upperLimit (x : Stream) : (s.withStream x).upperLimit = s.upperLimit := rfl
@[simp] theorem State.withStream_seedIn (x : Stream) : (s.withStream x).seedIn = s.seedIn := rfl
@[simp] theorem State.withStream_seedOut (x : Stream) : (s.withStream x).seedOut = s.seedOut := rfl
@[simp] theorem State.withStream_result (x : Stream) : (s.withStream x).result = s.result := rfl
@[simp] theorem State.withStream_outCount (x : Stream) : (s.withStream x).outCount = s.outCount := rfl
@[simp] theorem State.withStream_lcgState (x : Stream) : (s.withStream x).lcgState = s.lcgState := rfl
@[simp] theorem State.withStream_bCounter (x : Stream) : (s.withStream x).bCounter = x.bCounter := rfl
@[simp] theorem State.withStream_bBytes (x : Stream) : (s.withStream x).bBytes = x.bBytes := rfl
@[simp] theorem State.withStream_reseedCount (x : Stream) : (s.withStream x).reseedCount = x.reseedCount := rfl
@[simp] theorem State.withStream_akey (x : Stream) : (s.withStream x).akey = s.akey := rfl
@[simp] theorem State.withStream_aiv (x : Stream) : (s.withStream x).aiv = s.aiv := rfl
@[simp] theorem State.withStream_bmat (x : Stream) : (s.withStream x).bmat = s.bmat := rfl
@[simp] theorem State.withStream_roll (x : Stream) : (s.withStream x).roll = x.roll := rfl
@[simp] theorem State.withStream_bkey (x : Stream) : (s.withStream x).bkey = x.bkey := rfl
@[simp] theorem State.withStream_bnonce (x : Stream) : (s.withStream x).bnonce = x.bnonce := rfl
@[simp] theorem State.withStream_out (x : Stream) : (s.withStream x).out = s.out := rfl
@[simp] theorem State.withStream_outDraw (x : Stream) : (s.withStream x).outDraw = s.outDraw := rfl
@[simp] theorem State.withStream_primDraws (x : Stream) : (s.withStream x).primDraws = s.primDraws := rfl
@[simp] theorem State.withStream_draws (x : Stream) : (s.withStream x).draws = s.draws := rfl
@[simp] theorem State.withStream_pending (x : Stream) : (s.withStream x).pending = s.pending := rfl
@[simp] theorem State.withStream_reads (x : Stream) : (s.withStream x).reads = s.reads := rfl
@[simp] theorem State.withStream_stream (x : Stream) : (s.withStream x).stream = x := rfl
@[simp] theorem State.stream_withStream : s.withStream s.stream = s := rfl
@[simp] theorem State.withStream_withStream (x y : Stream) : (s.withStream x).withStream y = s.withStream y := rfl

/-! #### Updates of different fields, in one order -/

@[simp] theorem State.withStream_setOut (m : Memory) (x : Stream) :
    (s.setOut m).withStream x = (s.withStream x).setOut m := rfl
@[simp] theorem State.afterDraws_setOut (m : Memory) (k : Nat) :
    (s.setOut m).afterDraws k = (s.afterDraws k).setOut m := rfl
@[simp] theorem State.afterDraws_withStream (x : Stream) (k : Nat) :
    (s.withStream x).afterDraws k = (s.afterDraws k).withStream x := rfl
@[simp] theorem State.afterDraws_stream (k : Nat) : (s.afterDraws k).stream = s.stream := rfl

/-! #### `Status.begun` -/

@[simp] theorem Status.begun_busy : st.begun.busy = st.busy := rfl
@[simp] theorem Status.begun_err : st.begun.err = false := rfl
@[simp] theorem Status.begun_errSticky : st.begun.errSticky = st.errSticky := rfl
@[simp] theorem Status.begun_fallback : st.begun.fallback = st.fallback := rfl
@[simp] theorem Status.begun_aSeeded : st.begun.aSeeded = st.aSeeded := rfl
@[simp] theorem Status.begun_bReady : st.begun.bReady = st.bReady := rfl
@[simp] theorem Status.begun_errcode : st.begun.errcode = .none := rfl

/-! #### `Status.raised` -/

@[simp] theorem Status.raised_busy (c : ErrorCode) : (st.raised c).busy = st.busy := rfl
@[simp] theorem Status.raised_err (c : ErrorCode) : (st.raised c).err = true := rfl
@[simp] theorem Status.raised_errSticky (c : ErrorCode) : (st.raised c).errSticky = true := rfl
@[simp] theorem Status.raised_fallback (c : ErrorCode) : (st.raised c).fallback = st.fallback := rfl
@[simp] theorem Status.raised_aSeeded (c : ErrorCode) : (st.raised c).aSeeded = st.aSeeded := rfl
@[simp] theorem Status.raised_bReady (c : ErrorCode) : (st.raised c).bReady = st.bReady := rfl
@[simp] theorem Status.raised_errcode (c : ErrorCode) : (st.raised c).errcode = c := rfl

/-! #### `Status.seeded` -/

@[simp] theorem Status.seeded_busy (fb : Bool) : (st.seeded fb).busy = st.busy := rfl
@[simp] theorem Status.seeded_err (fb : Bool) : (st.seeded fb).err = st.err := rfl
@[simp] theorem Status.seeded_errSticky (fb : Bool) : (st.seeded fb).errSticky = st.errSticky := rfl
@[simp] theorem Status.seeded_fallback (fb : Bool) : (st.seeded fb).fallback = fb := rfl
@[simp] theorem Status.seeded_aSeeded (fb : Bool) : (st.seeded fb).aSeeded = true := rfl
@[simp] theorem Status.seeded_bReady (fb : Bool) : (st.seeded fb).bReady = st.bReady := rfl
@[simp] theorem Status.seeded_errcode (fb : Bool) : (st.seeded fb).errcode = st.errcode := rfl

/-! #### `Status.withReady` -/

@[simp] theorem Status.withReady_busy (b : Bool) : (st.withReady b).busy = st.busy := rfl
@[simp] theorem Status.withReady_err (b : Bool) : (st.withReady b).err = st.err := rfl
@[simp] theorem Status.withReady_errSticky (b : Bool) : (st.withReady b).errSticky = st.errSticky := rfl
@[simp] theorem Status.withReady_fallback (b : Bool) : (st.withReady b).fallback = st.fallback := rfl
@[simp] theorem Status.withReady_aSeeded (b : Bool) : (st.withReady b).aSeeded = st.aSeeded := rfl
@[simp] theorem Status.withReady_bReady (b : Bool) : (st.withReady b).bReady = b := rfl
@[simp] theorem Status.withReady_errcode (b : Bool) : (st.withReady b).errcode = st.errcode := rfl

end Sys2Proof.Machine
end

