-- ==== Sys2Proof/Laws/Memory.lean ====
section
/-! SUPPORT. Laws of the output memory: a read after a write, and every write keeps the canonical form and stays inside `OUT` (R64,
R65). -/

namespace Sys2Proof.Machine

theorem Memory.read?_write_self (m : Memory) (a : Nat) (b : Byte) : Memory.read? (Memory.write m a b) a = some b := by
  induction m with
  | nil => simp [Memory.write, Memory.read?]
  | cons c m ih =>
    simp only [Memory.write]
    split
    · simp [Memory.read?]
    · split
      · simp [Memory.read?]
      · rename_i h1 h2
        simp [Memory.read?, h2, ih]

theorem Memory.read?_write_of_ne (m : Memory) {a x : Nat} (b : Byte) (h : x ≠ a) :
    Memory.read? (Memory.write m a b) x = Memory.read? m x := by
  induction m with
  | nil => simp [Memory.write, Memory.read?, h]
  | cons c m ih =>
    simp only [Memory.write]
    split
    · simp [Memory.read?, h]
    · split
      · rename_i h1 h2
        subst h2
        simp [Memory.read?, h]
      · simp [Memory.read?, ih]

/-- The offsets of a written memory: the one written and those it had. -/
theorem Memory.mem_write {m : Memory} {a : Nat} {b : Byte} {c : Host.Cell} (h : c ∈ Memory.write m a b) :
    c = (a, b) ∨ c ∈ m := by
  induction m with
  | nil => simpa [Memory.write] using h
  | cons d m ih =>
    simp only [Memory.write] at h
    split at h
    · simpa using h
    · split at h
      · rcases List.mem_cons.1 h with h | h
        · exact .inl h
        · exact .inr (List.mem_cons_of_mem _ h)
      · rcases List.mem_cons.1 h with h | h
        · exact .inr (h ▸ List.mem_cons_self ..)
        · exact (ih h).imp id (List.mem_cons_of_mem _)

/-- A byte write keeps the canonical form. -/
theorem Memory.wf_write {m : Memory} (a : Nat) (b : Byte) (h : Memory.wf m) : Memory.wf (Memory.write m a b) := by
  induction m with
  | nil => simp [Memory.wf, Memory.write]
  | cons c m ih =>
    have hc := List.pairwise_cons.1 h
    simp only [Memory.write]
    split
    · rename_i hlt
      refine List.pairwise_cons.2 ⟨fun d hd => ?_, h⟩
      rcases List.mem_cons.1 hd with rfl | hd
      · exact hlt
      · exact Nat.lt_trans hlt (hc.1 d hd)
    · split
      · rename_i _ heq
        exact List.pairwise_cons.2 ⟨fun d hd => heq ▸ hc.1 d hd, hc.2⟩
      · rename_i hlt hne
        refine List.pairwise_cons.2 ⟨fun d hd => ?_, ih hc.2⟩
        rcases Memory.mem_write hd with rfl | hd
        · show c.1 < a
          omega
        · exact hc.1 d hd

/-- A word write keeps the canonical form. -/
theorem Memory.wf_writeWord {m : Memory} (a : Nat) (v : Word) (h : Memory.wf m) : Memory.wf (Memory.writeWord m a v) :=
  Memory.wf_write _ _ (Memory.wf_write _ _ (Memory.wf_write _ _ (Memory.wf_write _ _ h)))

/-- A word write inside `OUT` stays inside `OUT`. -/
theorem Memory.inOut_writeWord {P : Params} {m : Memory} {i : Nat} (v : Word) (hi : i < P.outCapacity)
    (h : Memory.inOut P m) : Memory.inOut P (Memory.writeWord m (outAddr i) v) := by
  intro c hc
  have hb : ∀ j, j < 4 → outBase ≤ outAddr i + j ∧ outAddr i + j < windowEnd P := fun j hj => by
    simp only [outAddr, windowEnd]
    omega
  rcases Memory.mem_write hc with rfl | hc
  · exact hb 3 (by omega)
  rcases Memory.mem_write hc with rfl | hc
  · exact hb 2 (by omega)
  rcases Memory.mem_write hc with rfl | hc
  · exact hb 1 (by omega)
  rcases Memory.mem_write hc with rfl | hc
  · exact hb 0 (by omega)
  · exact h c hc

/-- The bytes of a word just written. -/
theorem Memory.read?_writeWord_self (m : Memory) (a : Nat) (v : Word) {j : Nat} (h : j < 4) :
    Memory.read? (Memory.writeWord m a v) (a + j) = some (byteAt (leBytes32 v) j) := by
  have hj : j = 0 ∨ j = 1 ∨ j = 2 ∨ j = 3 := by omega
  simp only [Memory.writeWord]
  rcases hj with rfl | rfl | rfl | rfl
  · rw [Memory.read?_write_of_ne _ _ (by omega), Memory.read?_write_of_ne _ _ (by omega),
      Memory.read?_write_of_ne _ _ (by omega), Nat.add_zero, Memory.read?_write_self]
  · rw [Memory.read?_write_of_ne _ _ (by omega), Memory.read?_write_of_ne _ _ (by omega), Memory.read?_write_self]
  · rw [Memory.read?_write_of_ne _ _ (by omega), Memory.read?_write_self]
  · rw [Memory.read?_write_self]

/-- A word write leaves every byte outside its 4 bytes alone. -/
theorem Memory.read?_writeWord_of_outside (m : Memory) {a x : Nat} (v : Word) (h : x < a ∨ a + 4 ≤ x) :
    Memory.read? (Memory.writeWord m a v) x = Memory.read? m x := by
  simp only [Memory.writeWord]
  rw [Memory.read?_write_of_ne _ _ (by omega), Memory.read?_write_of_ne _ _ (by omega),
    Memory.read?_write_of_ne _ _ (by omega), Memory.read?_write_of_ne _ _ (by omega)]

/-- `m'` is `m` after writes to output words `lo ≤ i < hi` only: every other byte is kept, and so is the form of the list. -/
structure WritesOut (P : Params) (lo hi : Nat) (m m' : Memory) : Prop where
  kept : ∀ a, a < outAddr lo ∨ outAddr hi ≤ a → Memory.read? m' a = Memory.read? m a
  wf : Memory.wf m → Memory.wf m'
  inOut : hi ≤ P.outCapacity → Memory.inOut P m → Memory.inOut P m'
  empty : hi ≤ lo → m' = m

theorem WritesOut.refl (P : Params) (lo hi : Nat) (m : Memory) : WritesOut P lo hi m m :=
  ⟨fun _ _ => rfl, id, fun _ => id, fun _ => rfl⟩

theorem WritesOut.trans {P : Params} {lo hi : Nat} {m m' m'' : Memory} (h : WritesOut P lo hi m m')
    (h' : WritesOut P lo hi m' m'') : WritesOut P lo hi m m'' :=
  ⟨fun a ha => (h'.kept a ha).trans (h.kept a ha), h'.wf ∘ h.wf, fun hc => h'.inOut hc ∘ h.inOut hc,
    fun he => (h'.empty he).trans (h.empty he)⟩

/-- Writes to fewer words are writes to more. -/
theorem WritesOut.mono {P : Params} {lo hi lo' hi' : Nat} {m m' : Memory} (h : WritesOut P lo hi m m') (hl : lo' ≤ lo)
    (hh : hi ≤ hi') : WritesOut P lo' hi' m m' :=
  ⟨fun a ha => h.kept a (by simp only [outAddr] at ha ⊢; omega), h.wf, fun hc => h.inOut (hh.trans hc),
    fun he => h.empty (by omega)⟩

theorem WritesOut.writeWord (P : Params) (i : Nat) (m : Memory) (v : Word) :
    WritesOut P i (i + 1) m (Memory.writeWord m (outAddr i) v) :=
  ⟨fun _ ha => Memory.read?_writeWord_of_outside _ _ (by simp only [outAddr] at ha ⊢; omega), Memory.wf_writeWord _ _,
    fun hc => Memory.inOut_writeWord _ (by omega), fun he => absurd he (by omega)⟩

/-- What a byte of `OUT` reads as depends on the written bytes and on the last reset's draw. -/
theorem State.outByte_congr {P : Params} {s t : State} {a : Nat} (ho : Memory.read? t.out a = Memory.read? s.out a)
    (hd : t.outDraw = s.outDraw) : t.outByte P a = s.outByte P a := by simp [State.outByte, ho, hd]

theorem State.outByte_writeOut_self (P : Params) (s : State) (i : Nat) (v : Word) {j : Nat} (h : j < 4) :
    (s.writeOut i v).outByte P (outAddr i + j) = byteAt (leBytes32 v) j := by
  simp [State.outByte, Memory.read?_writeWord_self _ _ _ h]

theorem State.outByte_writeOut_of_outside (P : Params) (s : State) {i a : Nat} (v : Word)
    (h : a < outAddr i ∨ outAddr (i + 1) ≤ a) : (s.writeOut i v).outByte P a = s.outByte P a := by
  refine State.outByte_congr ?_ rfl
  exact Memory.read?_writeWord_of_outside _ _ (by simp only [outAddr] at h ⊢; omega)

/-- The word just written to `OUT` is read back (R64). -/
theorem State.outWord_writeOut_self (P : Params) (s : State) (i : Nat) (v : Word) : (s.writeOut i v).outWord P i = v := by
  refine (congrArg le32 (bytes_ext fun j hj => ?_)).trans (le32_leBytes32 v)
  rw [byteAt_ofFn _ hj, State.outByte_writeOut_self _ _ _ _ hj]

/-- Output words read alike where their bytes do. -/
theorem State.outWord_congr {P : Params} {s t : State} {i : Nat}
    (h : ∀ a, outAddr i ≤ a → a < outAddr (i + 1) → t.outByte P a = s.outByte P a) : t.outWord P i = s.outWord P i := by
  rw [State.outWord, State.outWord]
  congr 1
  refine bytes_ext fun j hj => ?_
  rw [byteAt_ofFn _ hj, byteAt_ofFn _ hj]
  refine h _ ?_ ?_ <;> simp only [outAddr] <;> omega

/-- Output words depend on the written bytes and on the last reset's draw. -/
theorem State.outWord_congr' {P : Params} {s t : State} (ho : t.out = s.out) (hd : t.outDraw = s.outDraw) (i : Nat) :
    t.outWord P i = s.outWord P i :=
  State.outWord_congr fun a _ _ => State.outByte_congr (by rw [ho]) hd

/-- A write to one output word leaves every other one alone (R64). -/
theorem State.outWord_writeOut_of_ne (P : Params) (s : State) {i i' : Nat} (v : Word) (h : i' ≠ i) :
    (s.writeOut i v).outWord P i' = s.outWord P i' :=
  State.outWord_congr fun a h1 h2 =>
    State.outByte_writeOut_of_outside P s v (by simp only [outAddr] at h1 h2 ⊢; omega)

end Sys2Proof.Machine
end

