-- ==== Sys2Proof/Laws/Ops.lean ====
section
/-! SUPPORT. Laws of the shared operations: the draws and the invocations (R14), the recording of an error (R124), and the state a
primitive failure leaves (R126, R127). -/

namespace Sys2Proof.Machine

/-! #### Draws -/

@[simp] theorem State.afterDraws_zero (s : State) : s.afterDraws 0 = s := rfl

@[simp] theorem State.afterDraws_afterDraws (s : State) (j k : Nat) : (s.afterDraws j).afterDraws k = s.afterDraws (j + k) := by
  simp [State.afterDraws, Nat.add_assoc]

theorem State.drawn_eq (s : State) : s.drawn = s.afterDraws 1 := by simp [State.drawn, State.afterDraws]

theorem State.nextFails_eq (P : Params) (s : State) : s.nextFails P = s.failsAt P 0 := by
  unfold State.nextFails State.failsAt
  cases s.primDraws <;> rfl

/-- A draw depends on the environment's list and on the count of draws alone. -/
theorem State.failsAt_congr (P : Params) {s t : State} (hp : t.primDraws = s.primDraws) (hd : t.draws = s.draws) (k : Nat) :
    t.failsAt P k = s.failsAt P k := by simp [State.failsAt, hp, hd]

@[simp] theorem State.failsAt_afterDraws (P : Params) (s : State) (n k : Nat) :
    (s.afterDraws n).failsAt P k = s.failsAt P (n + k) := by
  simp [State.failsAt, List.getElem?_drop, Nat.add_assoc]

@[simp] theorem State.failsAt_beginCommand (P : Params) (s : State) (k : Nat) :
    s.beginCommand.failsAt P k = s.failsAt P k := rfl

@[simp] theorem State.failsAt_setOutCount (P : Params) (s : State) (v : Word) (k : Nat) :
    (s.setOutCount v).failsAt P k = s.failsAt P k := rfl

theorem State.NoFailure.at_zero {P : Params} {s : State} {n : Nat} (h : s.NoFailure P n) (hn : 0 < n) :
    s.failsAt P 0 = false := h 0 hn

theorem State.NoFailure.afterDraws {P : Params} {s : State} {n m : Nat} (h : s.NoFailure P (n + m)) :
    (s.afterDraws n).NoFailure P m := fun k hk => by
  rw [State.failsAt_afterDraws]
  exact h _ (by omega)

theorem State.NoFailure.mono {P : Params} {s : State} {n m : Nat} (h : s.NoFailure P n) (hm : m ≤ n) : s.NoFailure P m :=
  fun k hk => h k (by omega)

theorem State.NoFailure.congr {P : Params} {s t : State} {n : Nat} (h : s.NoFailure P n) (hp : t.primDraws = s.primDraws)
    (hd : t.draws = s.draws) : t.NoFailure P n := fun k hk => (State.failsAt_congr P hp hd k).trans (h k hk)

@[simp] theorem State.failsAt_setOut (P : Params) (s : State) (m : Memory) (k : Nat) :
    (s.setOut m).failsAt P k = s.failsAt P k := rfl

@[simp] theorem State.failsAt_withStream (P : Params) (s : State) (x : Stream) (k : Nat) :
    (s.withStream x).failsAt P k = s.failsAt P k := rfl

/-- One invocation (R14): it fails exactly if the next draw says so, and it makes one draw. -/
theorem invoke_eq {α : Type} (P : Params) (r : α) (s : State) :
    invoke P r s = (if s.failsAt P 0 then none else some r, s.afterDraws 1) := by
  rw [invoke, State.nextFails_eq, State.drawn_eq]

/-! #### The end of a command -/

theorem scrambleOut_eq (P : Params) (d n : Nat) (s : State) :
    ∃ m, scrambleOut P d n s = s.setOut m ∧ WritesOut P 0 n s.out m := by
  induction n with
  | zero => exact ⟨s.out, rfl, .refl ..⟩
  | succ n ih =>
    obtain ⟨m, he, hw⟩ := ih
    refine ⟨_, by rw [scrambleOut, he]; rfl, ?_⟩
    exact (hw.mono le_rfl (by omega)).trans ((WritesOut.writeWord P n m _).mono (by omega) le_rfl)

/-- All that a primitive failure does (R124, R126, R127): the error is recorded and `B_READY` cleared; beyond that only the stream
registers, `OUT[0..n)` and the draws change. -/
theorem State.primitiveFailure_eq (P : Params) (c : ErrorCode) (n : Nat) (s : State) :
    ∃ (x : Stream) (m : Memory), WritesOut P 0 n s.out m ∧
      s.primitiveFailure P c n =
        { ((s.withStream x).setOut m) with status := (s.status.raised c).withReady false, draws := s.draws + 1 } := by
  obtain ⟨m, he, hw⟩ := scrambleOut_eq P s.draws n (((s.raise c).setReady false).scrambleStream P)
  refine ⟨(s.scrambleStream P).stream, m, hw, ?_⟩
  rw [State.primitiveFailure, he]
  rfl

@[simp] theorem Progress.andThen_done (s : State) (f : State → Progress) : (Progress.done s).andThen f = f s := rfl

@[simp] theorem Progress.andThen_failed (c : ErrorCode) (s : State) (f : State → Progress) :
    (Progress.failed c s).andThen f = .failed c s := rfl

@[simp] theorem Progress.finish_done (P : Params) (n : Nat) (s : State) : (Progress.done s).finish P n = s := rfl

@[simp] theorem Progress.finish_failed (P : Params) (n : Nat) (c : ErrorCode) (s : State) :
    (Progress.failed c s).finish P n = s.primitiveFailure P c n := rfl

/-- A part of a command that follows another ends well only if both do. -/
theorem Progress.andThen_eq_done {p : Progress} {f : State → Progress} {t : State} :
    p.andThen f = .done t ↔ ∃ s, p = .done s ∧ f s = .done t := by
  cases p <;> simp [Progress.andThen]

/-- A part of a command that follows another fails where one of them does. -/
theorem Progress.andThen_eq_failed {p : Progress} {f : State → Progress} {c : ErrorCode} {t : State} :
    p.andThen f = .failed c t ↔ p = .failed c t ∨ ∃ s, p = .done s ∧ f s = .failed c t := by
  cases p <;> simp [Progress.andThen]

end Sys2Proof.Machine
end

