-- ==== Sys2Proof/Laws/ModeA.lean ====
section
/-! SUPPORT. Laws of Mode A: the LCG and the extraction as numbers (R86, R87, R95, R96), the seed derivation (R89), and the loop of draws
(R93, R99). -/

namespace Sys2Proof.Machine

theorem toNat_lcgNext (s : DWord) : (lcgNext s).toNat = (s.toNat * 1103515245 + 12345) % 2 ^ 64 := by
  simp [lcgNext, lcgMul, lcgInc]

/-- The extraction as a number: the cast to 32 bits drops no bit (R87). -/
theorem toNat_extract (s : DWord) {ul : Word} (h : ul ≠ 0) :
    (extract s ul).toNat = s.toNat / (ul.toNat * 2) % ul.toNat := by
  have hul := ul.isLt
  have hpos : 0 < ul.toNat := Nat.pos_of_ne_zero fun h0 => h (BitVec.eq_of_toNat_eq (by simpa using h0))
  have := Nat.mod_lt (s.toNat / (ul.toNat * 2)) hpos
  simp only [extract, extractFactor, BitVec.toNat_ofNat]
  omega

/-- R95. -/
theorem extract_lt (s : DWord) {ul : Word} (h : ul ≠ 0) : (extract s ul).toNat < ul.toNat := by
  rw [toNat_extract s h]
  exact Nat.mod_lt _ (Nat.pos_of_ne_zero fun h0 => h (BitVec.eq_of_toNat_eq (by simpa using h0)))

/-- R96. -/
theorem extract_one (s : DWord) : extract s 1 = 0 := by
  apply BitVec.eq_of_toNat_eq
  rw [toNat_extract s (by decide)]
  simp [Nat.mod_one]

/-- All that the derivation does (R89): the seed and the flag are those of its two draws, one draw is made if the first fails, else
two. -/
theorem deriveSeed_eq (P : Params) (s : State) :
    deriveSeed P s =
      { seed := (s.derivedSeed P).1, fallback := (s.derivedSeed P).2,
        after := s.afterDraws (if s.failsAt P 0 then 1 else 2) } := by
  rw [deriveSeed, invoke_eq]
  cases h0 : s.failsAt P 0
  · simp only [Bool.false_eq_true, if_false]
    rw [invoke_eq, State.failsAt_afterDraws]
    cases h1 : s.failsAt P 1 <;> simp [h0, h1, State.derivedSeed, fallBack]
  · simp [h0, State.derivedSeed, fallBack]

/-- The derivation reads `AKEY`, `AIV` and the draws (R98). -/
theorem State.derivedSeed_congr {P : Params} {s t : State} (hk : t.akey = s.akey) (hi : t.aiv = s.aiv)
    (h0 : t.failsAt P 0 = s.failsAt P 0) (h1 : t.failsAt P 1 = s.failsAt P 1) : t.derivedSeed P = s.derivedSeed P := by
  simp [State.derivedSeed, hk, hi, h0, h1]

/-- A fallback is the fallback seed (R89, R123). -/
theorem State.derivedSeed_fallback {P : Params} {s : State} (h : (s.derivedSeed P).2 = true) :
    (s.derivedSeed P).1 = fallbackSeed := by
  by_cases hf : s.failsAt P 0 || s.failsAt P 1
  · simp [State.derivedSeed, hf]
  · simp [State.derivedSeed, hf] at h

/-- All that the loop of draws does (R93, R99): it leaves the LCG state of `k` steps, writes the extraction of each into its word, and
changes nothing but `OUT[i..i+k)`. -/
theorem drawWords_eq (P : Params) (ul : Word) (k i : Nat) (l : DWord) (s : State) :
    ∃ m, drawWords ul k i l s = (lcgNext^[k] l, s.setOut m) ∧ WritesOut P i (i + k) s.out m ∧
      ∀ j, j < k → (s.setOut m).outWord P (i + j) = extract (lcgNext^[j + 1] l) ul := by
  induction k generalizing i l s with
  | zero => exact ⟨s.out, rfl, .refl .., fun j hj => absurd hj (by omega)⟩
  | succ k ih =>
    obtain ⟨m, he, hw, hv⟩ := ih (i + 1) (lcgNext l) (s.writeOut i (extract (lcgNext l) ul))
    refine ⟨m, by rw [drawWords, he, Function.iterate_succ_apply]; rfl, ?_, fun j hj => ?_⟩
    · exact ((WritesOut.writeWord P i s.out _).mono le_rfl (by omega)).trans (hw.mono (by omega) (by omega))
    · cases j with
      | zero =>
        rw [Nat.add_zero]
        refine (State.outWord_congr fun a _ h2 => ?_).trans (State.outWord_writeOut_self P s i (extract (lcgNext l) ul))
        exact State.outByte_congr (hw.kept a (.inl h2)) rfl
      | succ j =>
        rw [show i + (j + 1) = i + 1 + j by omega, Function.iterate_succ_apply lcgNext (j + 1)]
        exact hv j (by omega)

end Sys2Proof.Machine
end

