-- ==== Sys2Proof/Laws/ModeB.lean ====
section
/-! SUPPORT. Laws of Mode B: what the initialisation, the application and the reseed check can do (R100 to R105), the frame of the parts of
a command, and the loop of `B_GENERATE` (R107, R108, R112). -/

namespace Sys2Proof.Machine

/-- All that `b_apply` does (R103): `S` fails and the rest is skipped, or the stream registers advance by one application. -/
theorem applyStream_eq (P : Params) (s : State) :
    applyStream P s =
      if s.failsAt P 0 then .failed .cipherFailure (s.afterDraws 1)
      else .done ((s.afterDraws 1).withStream (s.stream.apply P)) := by
  rw [applyStream, invoke_eq]
  cases s.failsAt P 0 <;> rfl

/-- All that `b_reseed_if_due` does (R104): nothing up to the threshold; above it `H` fails, or the stream registers are rekeyed. -/
theorem reseedIfDue_eq (P : Params) (s : State) :
    reseedIfDue P s =
      if reseedThreshold < s.bBytes.toNat then
        if s.failsAt P 0 then .failed .hashFailure (s.afterDraws 1)
        else .done ((s.afterDraws 1).withStream (s.stream.reseed P))
      else .done s := by
  rw [reseedIfDue, deriveStream, invoke_eq]
  cases s.failsAt P 0 <;> rfl

/-- All that `b_init` does (R105): `H` fails, or the stream registers are those of the material and `B_READY` is set. -/
theorem initStream_eq (P : Params) (s : State) :
    initStream P s =
      if s.failsAt P 0 then .failed .hashFailure { s.afterDraws 1 with roll := s.bmat }
      else .done (((s.afterDraws 1).withStream (Stream.init P s.bmat)).setReady true) := by
  have h : ({ s with roll := s.bmat } : State).failsAt P 0 = s.failsAt P 0 := rfl
  rw [initStream, deriveStream, invoke_eq, h]
  cases s.failsAt P 0 <;> rfl

/-- All that the copy of `k` lanes does (R107, R102). -/
theorem copyLanes_eq (P : Params) (w k : Nat) (s : State) :
    ∃ m, copyLanes w k s = s.setOut m ∧ WritesOut P w (w + k) s.out m ∧
      ∀ j, j < k → (s.setOut m).outWord P (w + j) = wordAt s.roll j := by
  induction k with
  | zero => exact ⟨s.out, rfl, .refl .., fun j hj => absurd hj (by omega)⟩
  | succ k ih =>
    obtain ⟨m, he, hw, hv⟩ := ih
    refine ⟨Memory.writeWord m (outAddr (w + k)) (wordAt s.roll k), by rw [copyLanes, he]; rfl, ?_, fun j hj => ?_⟩
    · exact (hw.mono le_rfl (by omega)).trans ((WritesOut.writeWord P (w + k) m _).mono (by omega) (by omega))
    · by_cases hjk : j = k
      · subst hjk
        exact State.outWord_writeOut_self P (s.setOut m) (w + j) _
      · exact (State.outWord_writeOut_of_ne P (s.setOut m) _ (by omega)).trans (hv j (by omega))

/-! #### The frame of the parts of a command -/

/-- `t` is `s` but for the stream registers, the draws, and `OUT[lo..hi)`. -/
structure StreamFrame (P : Params) (lo hi : Nat) (s t : State) : Prop where
  eq : t = { s.withStream t.stream with out := t.out, primDraws := t.primDraws, draws := t.draws }
  out : WritesOut P lo hi s.out t.out
  draws_le : s.draws ≤ t.draws

theorem StreamFrame.refl (P : Params) (lo hi : Nat) (s : State) : StreamFrame P lo hi s s := ⟨rfl, .refl .., le_rfl⟩

theorem StreamFrame.trans {P : Params} {lo hi : Nat} {s t u : State} (h : StreamFrame P lo hi s t)
    (h' : StreamFrame P lo hi t u) : StreamFrame P lo hi s u := by
  refine ⟨?_, h.out.trans h'.out, h.draws_le.trans h'.draws_le⟩
  have e := h'.eq
  rw [h.eq] at e
  exact e

theorem StreamFrame.mono {P : Params} {lo hi lo' hi' : Nat} {s t : State} (h : StreamFrame P lo hi s t) (hl : lo' ≤ lo)
    (hh : hi ≤ hi') : StreamFrame P lo' hi' s t := ⟨h.eq, h.out.mono hl hh, h.draws_le⟩

/-- Every end of a part of a command, good or bad, is within its frame, and a bad one is a primitive's failure. -/
def Progress.Within (P : Params) (lo hi : Nat) (s : State) : Progress → Prop
  | .done t => StreamFrame P lo hi s t
  | .failed c t => StreamFrame P lo hi s t ∧ (c = .hashFailure ∨ c = .cipherFailure)

theorem Progress.Within.andThen {P : Params} {lo hi : Nat} {s : State} {p : Progress} {f : State → Progress}
    (hp : p.Within P lo hi s) (hf : ∀ t, (f t).Within P lo hi t) : (p.andThen f).Within P lo hi s := by
  cases p with
  | failed c t => exact hp
  | done t =>
    have h := hf t
    rw [Progress.andThen_done]
    revert h
    cases f t with
    | done u => exact fun h => StreamFrame.trans hp h
    | failed c u => exact fun h => ⟨StreamFrame.trans hp h.1, h.2⟩

theorem Progress.Within.mono {P : Params} {lo hi lo' hi' : Nat} {s : State} {p : Progress} (h : p.Within P lo hi s)
    (hl : lo' ≤ lo) (hh : hi ≤ hi') : p.Within P lo' hi' s := by
  cases p with
  | done t => exact StreamFrame.mono h hl hh
  | failed c t => exact ⟨StreamFrame.mono h.1 hl hh, h.2⟩

theorem applyStream_within (P : Params) (lo hi : Nat) (s : State) : (applyStream P s).Within P lo hi s := by
  rw [applyStream_eq]
  split
  · exact ⟨⟨rfl, .refl .., by simp⟩, .inr rfl⟩
  · exact ⟨rfl, .refl .., by simp⟩

theorem reseedIfDue_within (P : Params) (lo hi : Nat) (s : State) : (reseedIfDue P s).Within P lo hi s := by
  rw [reseedIfDue_eq]
  split
  · split
    · exact ⟨⟨rfl, .refl .., by simp⟩, .inl rfl⟩
    · exact ⟨rfl, .refl .., by simp⟩
  · exact .refl ..

theorem copyLanes_within (P : Params) (w k : Nat) (s : State) : StreamFrame P w (w + k) s (copyLanes w k s) := by
  obtain ⟨m, he, hw, -⟩ := copyLanes_eq P w k s
  rw [he]
  exact ⟨rfl, hw, le_rfl⟩

theorem generateIteration_within (P : Params) (n w : Nat) (s : State) (hw : w < n) :
    (generateIteration P n w s).Within P 0 n s := by
  refine (applyStream_within P 0 n s).andThen fun s1 => ?_
  have hc := (copyLanes_within P w (min blockWords (n - w)) s1).mono (Nat.zero_le _) (show _ ≤ n by omega)
  have hr := reseedIfDue_within P 0 n (copyLanes w (min blockWords (n - w)) s1)
  revert hr
  cases reseedIfDue P (copyLanes w (min blockWords (n - w)) s1) with
  | done t => exact fun h => hc.trans h
  | failed c t => exact fun h => ⟨hc.trans h.1, h.2⟩

theorem generateLoop_within (P : Params) (n fuel w : Nat) (s : State) : (generateLoop P n fuel w s).Within P 0 n s := by
  induction fuel generalizing w s with
  | zero => exact .refl ..
  | succ fuel ih =>
    rw [generateLoop]
    split
    · rename_i hw
      exact (generateIteration_within P n w s hw).andThen fun s1 => ih _ s1
    · exact .refl ..

/-! #### The stream registers of a run without failures -/

/-- The rolling buffer of the next iteration is `S` of this one's (R115). -/
theorem Stream.next_roll (P : Params) (x : Stream) :
    (x.next P).roll = P.streamApply x.bkey x.bnonce x.bCounter x.roll := by
  unfold Stream.next
  split <;> rfl

/-- One iteration takes the byte count from `64 * m` to `64 * (m + 1)`, and to 0 after the ninth (R110, R112). -/
theorem Stream.next_bytes (P : Params) {x : Stream} {m : Nat} (hm : m < 9) (h : x.bBytes.toNat = 64 * m) :
    (x.apply P).bBytes.toNat = 64 * (m + 1) ∧ (x.next P).bBytes.toNat = 64 * ((m + 1) % 9) ∧
      (x.next P).reseedCount = if m = 8 then x.reseedCount + 1 else x.reseedCount := by
  have ha : (x.apply P).bBytes.toNat = 64 * (m + 1) := by
    simp [Stream.apply, BitVec.toNat_add, h]
    omega
  refine ⟨ha, ?_⟩
  unfold Stream.next
  by_cases h8 : m = 8
  · rw [if_pos (by rw [ha, reseedThreshold]; omega), if_pos h8]
    subst h8
    exact ⟨rfl, rfl⟩
  · rw [if_neg (by rw [ha, reseedThreshold]; omega), if_neg h8, ha, Nat.mod_eq_of_lt (by omega)]
    exact ⟨rfl, rfl⟩

/-- After `a` iterations from the initialisation: `B_BYTES` is 64 times the applications since the last reseed, and a reseed followed
every ninth application (R112). -/
theorem Stream.iterate_bytes (P : Params) (m : Bytes 64) (a : Nat) :
    ((Stream.next P)^[a] (Stream.init P m)).bBytes.toNat = 64 * (a % 9) ∧
      ((Stream.next P)^[a] (Stream.init P m)).reseedCount = BitVec.ofNat 32 (a / 9) := by
  induction a with
  | zero => exact ⟨rfl, rfl⟩
  | succ a ih =>
    rw [Function.iterate_succ_apply']
    obtain ⟨-, hb, hr⟩ := Stream.next_bytes P (Nat.mod_lt a (by omega)) ih.1
    refine ⟨by rw [hb]; omega, ?_⟩
    rw [hr, ih.2]
    split
    · rw [show (a + 1) / 9 = a / 9 + 1 by omega, BitVec.ofNat_add]
      rfl
    · rw [show (a + 1) / 9 = a / 9 by omega]

/-- Iteration `a` from the initialisation is one application, and a reseed after it where `a + 1` is a multiple of nine (R112). -/
theorem Stream.iterate_next (P : Params) (m : Bytes 64) (a : Nat) :
    (Stream.next P)^[a + 1] (Stream.init P m) =
      if (a + 1) % 9 = 0 then (((Stream.next P)^[a] (Stream.init P m)).apply P).reseed P
      else ((Stream.next P)^[a] (Stream.init P m)).apply P := by
  have hb := (Stream.next_bytes P (Nat.mod_lt a (by omega)) (Stream.iterate_bytes P m a).1).1
  rw [Function.iterate_succ_apply', Stream.next, hb]
  by_cases h : (a + 1) % 9 = 0
  · rw [if_pos h, if_pos (by rw [reseedThreshold]; omega)]
  · rw [if_neg h, if_neg (by rw [reseedThreshold]; omega)]

/-! #### The byte count -/

/-- `B_BYTES` is a multiple of 64, at most the threshold (R39, R110). -/
def State.CountsBlocks (s : State) : Prop := s.bBytes.toNat ≤ reseedThreshold ∧ s.bBytes.toNat % blockBytes = 0

/-- The reseed check after one application keeps the byte count within the threshold (R110). -/
theorem reseedIfDue_countsBlocks (P : Params) {s t : State} (h : s.bBytes.toNat % 64 = 0) (he : reseedIfDue P s = .done t) :
    t.CountsBlocks := by
  rw [reseedIfDue_eq] at he
  split at he
  · split at he
    · cases he
    · injection he with he
      rw [← he]
      exact ⟨Nat.zero_le _, rfl⟩
  · rename_i hlt
    injection he with he
    rw [← he]
    exact ⟨Nat.le_of_not_lt hlt, h⟩

theorem generateIteration_countsBlocks (P : Params) {n w : Nat} {s t : State} (h : s.CountsBlocks)
    (he : generateIteration P n w s = .done t) : t.CountsBlocks := by
  obtain ⟨s1, ha, hr⟩ := Progress.andThen_eq_done.1 he
  refine reseedIfDue_countsBlocks P ?_ hr
  obtain ⟨m, hc, -, -⟩ := copyLanes_eq P w (min blockWords (n - w)) s1
  rw [applyStream_eq] at ha
  split at ha
  · cases ha
  · injection ha with ha
    rw [hc, ← ha]
    have hs : s.bBytes.toNat ≤ 512 ∧ s.bBytes.toNat % 64 = 0 := h
    show (s.bBytes + 64).toNat % 64 = 0
    rw [BitVec.toNat_add, show (64 : Word).toNat = 64 from rfl]
    omega

/-- The loop of `B_GENERATE` keeps the byte count within the threshold (R110). -/
theorem generateLoop_countsBlocks (P : Params) {n : Nat} (fuel w : Nat) {s t : State} (h : s.CountsBlocks)
    (he : generateLoop P n fuel w s = .done t) : t.CountsBlocks := by
  induction fuel generalizing w s with
  | zero =>
    injection he with he
    rwa [← he]
  | succ fuel ih =>
    rw [generateLoop] at he
    split at he
    · obtain ⟨s1, h1, h2⟩ := Progress.andThen_eq_done.1 he
      exact ih _ (generateIteration_countsBlocks P h h1) h2
    · injection he with he
      rwa [← he]

/-! #### The loop of `B_GENERATE` -/

/-- The invocations made before iteration `a` of a `B_GENERATE`: the derivation, the applications and the reseeds (R112). -/
def invocationsBefore (a : Nat) : Nat := 1 + a + a / 9

theorem invocationsBefore_mono {a b : Nat} (h : a ≤ b) : invocationsBefore a ≤ invocationsBefore b := by
  have := Nat.div_le_div_right (c := 9) h
  simp only [invocationsBefore]
  omega

theorem invocations_eq (n : Nat) : invocations n = invocationsBefore (applications n) := rfl

/-- The draws an iteration with number `a` makes: one, and one more if it reseeds (R104). -/
theorem invocationsBefore_succ (a : Nat) :
    invocationsBefore (a + 1) = invocationsBefore a + if a % 9 = 8 then 2 else 1 := by
  simp only [invocationsBefore]
  split <;> omega

/-- One iteration in which no primitive fails: its draws are made, the stream registers are the next ones, and its words are in `OUT`
(R103, R104, R107). -/
theorem generateIteration_done (P : Params) {n w a : Nat} {s : State} (hb : s.bBytes.toNat = 64 * (a % 9))
    (hf : s.NoFailure P (if a % 9 = 8 then 2 else 1)) :
    ∃ m, generateIteration P n w s =
        .done (((s.afterDraws (if a % 9 = 8 then 2 else 1)).withStream (s.stream.next P)).setOut m) ∧
      WritesOut P w (w + min blockWords (n - w)) s.out m ∧
      ∀ j, j < min blockWords (n - w) → (s.setOut m).outWord P (w + j) = wordAt (s.stream.next P).roll j := by
  have ha : (s.stream.apply P).bBytes.toNat = 64 * (a % 9 + 1) :=
    (Stream.next_bytes P (x := s.stream) (Nat.mod_lt a (by omega)) hb).1
  have h0 : s.failsAt P 0 = false := hf.at_zero (by split <;> omega)
  obtain ⟨m, he, hw, hv⟩ :=
    copyLanes_eq P w (min blockWords (n - w)) ((s.afterDraws 1).withStream (s.stream.apply P))
  refine ⟨m, ?_, hw, fun j hj => ?_⟩
  · rw [generateIteration, applyStream_eq, h0, if_neg (by simp), Progress.andThen_done, he, reseedIfDue_eq]
    simp only [State.setOut_bBytes, State.withStream_bBytes, State.failsAt_setOut, State.failsAt_withStream,
      State.failsAt_afterDraws, State.setOut_stream, State.withStream_stream, Stream.next, ha, reseedThreshold]
    by_cases h8 : a % 9 = 8
    · rw [if_pos h8] at hf
      have h1 : s.failsAt P (1 + 0) = false := hf 1 (by omega)
      simp [h8, h1]
    · have hlt : ¬ 512 < 64 * (a % 9 + 1) := by omega
      simp [h8, hlt]
  · rw [Stream.next_roll]
    exact hv j hj

/-- The loop stops where all words are written (R107). -/
theorem generateLoop_stop (P : Params) {n w : Nat} (fuel : Nat) (s : State) (h : n ≤ w) :
    generateLoop P n fuel w s = .done s := by
  cases fuel with
  | zero => rfl
  | succ fuel => rw [generateLoop, if_neg (by omega)]

/-- The loop goes on from the next iteration, whose first word is 16 words further; the last one ends it. -/
theorem generateLoop_next (P : Params) {n a : Nat} (fuel : Nat) {s t : State} (h : 16 * a < n)
    (he : generateIteration P n (16 * a) s = .done t) :
    generateLoop P n (fuel + 1) (16 * a) s = generateLoop P n fuel (16 * (a + 1)) t := by
  rw [generateLoop, if_pos h, he, Progress.andThen_done]
  by_cases hl : n ≤ 16 * (a + 1)
  · rw [generateLoop_stop P fuel t hl, generateLoop_stop P fuel t (by simp only [blockWords]; omega)]
  · rw [show 16 * a + min blockWords (n - 16 * a) = 16 * (a + 1) by simp only [blockWords]; omega]

/-- The loop of `B_GENERATE` from iteration `a` on, where no primitive fails (R107, R108, R112). -/
theorem generateLoop_done (P : Params) {n : Nat} (fuel a : Nat) (s : State) (hn : n ≤ 16 * a + fuel)
    (ha : a ≤ applications n) (hb : s.bBytes.toNat = 64 * (a % 9))
    (hf : s.NoFailure P (invocations n - invocationsBefore a)) :
    ∃ m, generateLoop P n fuel (16 * a) s =
        .done (((s.afterDraws (invocations n - invocationsBefore a)).withStream
          ((Stream.next P)^[applications n - a] s.stream)).setOut m) ∧
      WritesOut P (16 * a) n s.out m ∧
      ∀ b j, j < 16 → 16 * (a + b) + j < n →
        (s.setOut m).outWord P (16 * (a + b) + j) = wordAt ((Stream.next P)^[b + 1] s.stream).roll j := by
  induction fuel generalizing a s with
  | zero =>
    obtain rfl : a = applications n := by simp only [applications] at ha ⊢; omega
    refine ⟨s.out, ?_, .refl .., fun b j hj hlt => absurd hlt (by omega)⟩
    rw [invocations_eq, Nat.sub_self, Nat.sub_self]
    rfl
  | succ fuel ih =>
    by_cases hw : 16 * a < n
    · have hal : a + 1 ≤ applications n := by simp only [applications]; omega
      have hle := invocationsBefore_mono hal
      rw [← invocations_eq] at hle
      have hs := invocationsBefore_succ a
      obtain ⟨m1, he, hw1, hv1⟩ := generateIteration_done P (n := n) (w := 16 * a) hb (hf.mono (by omega))
      obtain ⟨m2, he2, hw2, hv2⟩ := ih (a + 1)
        (((s.afterDraws (if a % 9 = 8 then 2 else 1)).withStream (s.stream.next P)).setOut m1) (by omega) hal
        (by
          have := (Stream.next_bytes P (x := s.stream) (Nat.mod_lt a (by omega)) hb).2.1
          rw [State.setOut_bBytes, State.withStream_bBytes, this]
          omega)
        (State.NoFailure.congr (s := s.afterDraws (if a % 9 = 8 then 2 else 1))
          (State.NoFailure.afterDraws (hf.mono (by omega))) rfl rfl)
      simp only [State.setOut_stream, State.withStream_stream, State.setOut_setOut] at he2 hv2
      refine ⟨m2, ?_, ?_, fun b j hj hlt => ?_⟩
      · rw [generateLoop_next P fuel hw he, he2, show applications n - a = applications n - (a + 1) + 1 by omega,
          Function.iterate_succ_apply, show invocations n - invocationsBefore a =
            (if a % 9 = 8 then 2 else 1) + (invocations n - invocationsBefore (a + 1)) by omega,
          ← State.afterDraws_afterDraws]
        simp only [State.afterDraws_setOut, State.afterDraws_withStream, State.withStream_setOut,
          State.withStream_withStream, State.setOut_setOut]
      · exact (hw1.mono le_rfl (by simp only [blockWords]; omega)).trans (hw2.mono (by omega) le_rfl)
      · cases b with
        | zero =>
          rw [Nat.add_zero, Nat.zero_add, Function.iterate_one]
          refine Eq.trans (State.outWord_congr (s := s.setOut m1) fun x _ hx => ?_) (hv1 j (by simp only [blockWords]; omega))
          refine State.outByte_congr (s := s.setOut m1) (hw2.kept x (.inl ?_)) rfl
          simp only [outAddr] at hx ⊢
          omega
        | succ b =>
          rw [show a + (b + 1) = a + 1 + b by omega, Function.iterate_succ_apply]
          have h := hv2 b j hj (by omega)
          refine Eq.trans (State.outWord_congr' ?_ ?_ _) h <;> rfl
    · obtain rfl : a = applications n := by simp only [applications] at ha ⊢; omega
      refine ⟨s.out, ?_, .refl .., fun b j hj hlt => absurd hlt (by omega)⟩
      rw [generateLoop_stop P _ _ (by omega), invocations_eq, Nat.sub_self, Nat.sub_self]
      rfl

/-- The first failing invocation of an iteration with number `a` ends it with its primitive's error (R128): `S`, or the `H` of the
reseed after a ninth application. -/
theorem generateIteration_failed (P : Params) {n w a k : Nat} {s : State} (hb : s.bBytes.toNat = 64 * (a % 9))
    (hk : k < if a % 9 = 8 then 2 else 1) (hf : s.NoFailure P k) (hfail : s.failsAt P k = true) :
    ∃ t, generateIteration P n w s = .failed (if k = 0 then .cipherFailure else .hashFailure) t := by
  have ha : (s.stream.apply P).bBytes.toNat = 64 * (a % 9 + 1) :=
    (Stream.next_bytes P (x := s.stream) (Nat.mod_lt a (by omega)) hb).1
  by_cases h0 : k = 0
  · subst h0
    exact ⟨s.afterDraws 1, by rw [generateIteration, applyStream_eq, hfail]; rfl⟩
  · have h8 : a % 9 = 8 := by
      by_contra h
      rw [if_neg h] at hk
      omega
    obtain rfl : k = 1 := by rw [if_pos h8] at hk; omega
    obtain ⟨m, he, -, -⟩ :=
      copyLanes_eq P w (min blockWords (n - w)) ((s.afterDraws 1).withStream (s.stream.apply P))
    have hlt : reseedThreshold < (s.stream.apply P).bBytes.toNat := by rw [ha, reseedThreshold]; omega
    have h1 : s.failsAt P (1 + 0) = true := hfail
    rw [generateIteration, applyStream_eq, hf.at_zero (by omega), if_neg (by simp), Progress.andThen_done, he, reseedIfDue_eq]
    simp [hlt, h1]

/-- The loop of `B_GENERATE` from iteration `a` on, where invocation `k` of it is the first that fails (R128): its error is that of
the failing primitive, which is `H` for every tenth invocation of the command and `S` for the others (R108, R112). -/
theorem generateLoop_failed (P : Params) {n : Nat} (fuel a k : Nat) (s : State) (hn : n ≤ 16 * a + fuel)
    (ha : a ≤ applications n) (hb : s.bBytes.toNat = 64 * (a % 9)) (hk : k < invocations n - invocationsBefore a)
    (hf : s.NoFailure P k) (hfail : s.failsAt P k = true) :
    ∃ t, generateLoop P n fuel (16 * a) s =
      .failed (if (invocationsBefore a + k) % 10 = 0 then .hashFailure else .cipherFailure) t := by
  induction fuel generalizing a k s with
  | zero =>
    obtain rfl : a = applications n := by simp only [applications] at ha ⊢; omega
    rw [invocations_eq] at hk
    omega
  | succ fuel ih =>
    have hw : 16 * a < n := by
      by_contra h
      obtain rfl : a = applications n := by simp only [applications] at ha ⊢; omega
      rw [invocations_eq] at hk
      omega
    have hal : a + 1 ≤ applications n := by simp only [applications]; omega
    have hs := invocationsBefore_succ a
    by_cases hki : k < if a % 9 = 8 then 2 else 1
    · obtain ⟨t, ht⟩ := generateIteration_failed P (n := n) (w := 16 * a) hb hki hf hfail
      refine ⟨t, ?_⟩
      rw [generateLoop, if_pos hw, ht, Progress.andThen_failed]
      have hm := Nat.mod_lt a (show 9 > 0 by omega)
      congr 1
      by_cases h0 : k = 0
      · rw [if_pos h0, if_neg (by simp only [invocationsBefore]; omega)]
      · have h8 : a % 9 = 8 := by
          by_contra h
          rw [if_neg h] at hki
          omega
        rw [if_pos h8] at hki
        rw [if_neg h0, if_pos (by simp only [invocationsBefore]; omega)]
    · obtain ⟨m, he, -, -⟩ := generateIteration_done P (n := n) (w := 16 * a) hb (hf.mono (by omega))
      obtain ⟨t, ht⟩ := ih (a + 1) (k - if a % 9 = 8 then 2 else 1)
        (((s.afterDraws (if a % 9 = 8 then 2 else 1)).withStream (s.stream.next P)).setOut m) (by omega) hal
        (by
          have := (Stream.next_bytes P (x := s.stream) (Nat.mod_lt a (by omega)) hb).2.1
          rw [State.setOut_bBytes, State.withStream_bBytes, this]
          omega)
        (by omega)
        (State.NoFailure.congr (s := s.afterDraws (if a % 9 = 8 then 2 else 1))
          (State.NoFailure.afterDraws (hf.mono (by omega))) rfl rfl)
        (by
          rw [State.failsAt_setOut, State.failsAt_withStream, State.failsAt_afterDraws,
            show (if a % 9 = 8 then 2 else 1) + (k - if a % 9 = 8 then 2 else 1) = k by omega]
          exact hfail)
      refine ⟨t, ?_⟩
      rw [generateLoop_next P fuel hw he, ht, show invocationsBefore (a + 1) + (k - if a % 9 = 8 then 2 else 1) =
        invocationsBefore a + k by omega]

end Sys2Proof.Machine
end

