-- ==== Sys2Proof/Laws/Commands.lean ====
section
/-! SUPPORT. What each command can do, said once: one inversion lemma per command (R90 to R93, R105 to R107), from which the claims about
all commands follow without unfolding a meaning. -/

namespace Sys2Proof.Machine

/-- `t` is `s` after a command that ended with the primitive failure `c` (R126, R127): the error recorded, `B_READY` cleared, the stream
registers, `OUT[0..n)` and the draws anything, and nothing else changed. -/
structure FailedFrame (P : Params) (n : Nat) (c : ErrorCode) (s t : State) : Prop where
  code : c = .hashFailure ∨ c = .cipherFailure
  eq : t = { s.withStream t.stream with
    status := (s.status.raised c).withReady false, out := t.out, primDraws := t.primDraws, draws := t.draws }
  out : WritesOut P 0 n s.out t.out
  draws_le : s.draws ≤ t.draws

theorem FailedFrame.status_eq {P : Params} {n : Nat} {c : ErrorCode} {s t : State} (h : FailedFrame P n c s t) :
    t.status = (s.status.raised c).withReady false := by rw [h.eq]

/-- The end of a command whose part failed within its frame. -/
theorem StreamFrame.primitiveFailure {P : Params} {n : Nat} {c : ErrorCode} {s t : State} (h : StreamFrame P 0 n s t)
    (hc : c = .hashFailure ∨ c = .cipherFailure) : FailedFrame P n c s (t.primitiveFailure P c n) := by
  obtain ⟨x, m, hw, he⟩ := t.primitiveFailure_eq P c n
  refine ⟨hc, ?_, by rw [he]; exact h.out.trans hw, by rw [he]; exact Nat.le_succ_of_le h.draws_le⟩
  rw [he, h.eq]
  rfl

/-- The end of a command's last part: well, within its frame, or with a primitive failure. -/
theorem Progress.Within.finish {P : Params} {n : Nat} {s : State} {p : Progress} (h : p.Within P 0 n s) :
    (p = .done (p.finish P n) ∧ StreamFrame P 0 n s (p.finish P n)) ∨ ∃ c, FailedFrame P n c s (p.finish P n) := by
  cases p with
  | done t => exact .inl ⟨rfl, h⟩
  | failed c t => exact .inr ⟨c, h.1.primitiveFailure h.2⟩

@[simp] theorem Status.raised_begun (st : Status) (c : ErrorCode) : st.begun.raised c = st.raised c := rfl

/-! #### Mode A -/

theorem aDerive_eq (P : Params) (s : State) :
    aDerive P s = (s.beginCommand.afterDraws (if s.failsAt P 0 then 1 else 2)).seeded (zext64 (s.derivedSeed P).1)
      (s.derivedSeed P).1 (s.derivedSeed P).2 := by
  rw [aDerive, deriveSeed_eq]
  rfl

theorem aAdvance_cases (s : State) :
    (s.status.aSeeded = false ∧ aAdvance s = s.beginCommand.raise .sequenceError) ∨
    (s.status.aSeeded = true ∧ s.upperLimit = 0 ∧ aAdvance s = s.beginCommand.raise .invalidArgument) ∨
    (s.status.aSeeded = true ∧ s.upperLimit ≠ 0 ∧ aAdvance s =
      { s.beginCommand with lcgState := lcgNext s.lcgState, result := extract (lcgNext s.lcgState) s.upperLimit }) := by
  cases hs : s.status.aSeeded
  · exact .inl ⟨rfl, by rw [aAdvance, if_pos hs]⟩
  · by_cases hu : s.upperLimit = 0
    · exact .inr (.inl ⟨rfl, hu, by rw [aAdvance, if_neg (by simp [hs]), if_pos hu]⟩)
    · exact .inr (.inr ⟨rfl, hu, by rw [aAdvance, if_neg (by simp [hs]), if_neg hu]⟩)

theorem aGenerate_cases (P : Params) (s : State) :
    ((s.count = 0 ∨ s.upperLimit = 0 ∨ P.outCapacity < s.count.toNat) ∧
      aGenerate P s = (s.beginCommand.setOutCount 0).raise .invalidArgument) ∨
    (s.count ≠ 0 ∧ s.upperLimit ≠ 0 ∧ s.count.toNat ≤ P.outCapacity ∧ ∃ m, WritesOut P 0 s.count.toNat s.out m ∧
      (∀ j, j < s.count.toNat →
        (s.setOut m).outWord P j = extract (lcgNext^[j + 1] (zext64 (s.derivedSeed P).1)) s.upperLimit) ∧
      aGenerate P s = ((((s.beginCommand.afterDraws (if s.failsAt P 0 then 1 else 2)).setOut m).seeded
        (lcgNext^[s.count.toNat] (zext64 (s.derivedSeed P).1)) (s.derivedSeed P).1 (s.derivedSeed P).2).setOutCount
          s.count)) := by
  by_cases hbad : s.count = 0 ∨ s.upperLimit = 0 ∨ P.outCapacity < s.count.toNat
  · exact .inl ⟨hbad, by rw [aGenerate, if_pos hbad]⟩
  · obtain ⟨h1, h2, h3⟩ : s.count ≠ 0 ∧ s.upperLimit ≠ 0 ∧ s.count.toNat ≤ P.outCapacity :=
      ⟨fun h => hbad (.inl h), fun h => hbad (.inr (.inl h)), by
        by_contra h
        exact hbad (.inr (.inr (by omega)))⟩
    have hd : (s.beginCommand.setOutCount 0).derivedSeed P = s.derivedSeed P := rfl
    obtain ⟨m, he, hw, hv⟩ := drawWords_eq P s.upperLimit s.count.toNat 0 (zext64 (s.derivedSeed P).1)
      ((s.beginCommand.setOutCount 0).afterDraws (if s.failsAt P 0 then 1 else 2))
    rw [Nat.zero_add] at hw
    refine .inr ⟨h1, h2, h3, m, hw, fun j hj => ?_, ?_⟩
    · have h := hv j hj
      rw [Nat.zero_add] at h
      refine Eq.trans (State.outWord_congr' ?_ ?_ _) h <;> rfl
    · rw [aGenerate, if_neg hbad, deriveSeed_eq, hd, State.failsAt_setOutCount, State.failsAt_beginCommand]
      simp only [he]
      rfl

/-! #### Mode B -/

theorem bInit_cases (P : Params) (s : State) :
    (s.failsAt P 0 = true ∧ FailedFrame P 0 .hashFailure s (bInit P s)) ∨
    (s.failsAt P 0 = false ∧
      bInit P s = ((s.beginCommand.afterDraws 1).withStream (Stream.init P s.bmat)).setReady true) := by
  cases h0 : s.failsAt P 0
  · refine .inr ⟨rfl, ?_⟩
    rw [bInit, initStream_eq, State.failsAt_beginCommand, h0]
    rfl
  · refine .inl ⟨rfl, ?_⟩
    rw [bInit, initStream_eq, State.failsAt_beginCommand, h0, if_pos rfl, Progress.finish_failed]
    have hf : StreamFrame P 0 0 s.beginCommand { s.beginCommand.afterDraws 1 with roll := s.beginCommand.bmat } :=
      ⟨rfl, .refl .., by simp⟩
    obtain ⟨hc, he, ho, hd⟩ := hf.primitiveFailure (.inl rfl)
    exact ⟨hc, he, ho, hd⟩

theorem bStep_cases (P : Params) (s : State) :
    (s.status.bReady = false ∧ bStep P s = s.beginCommand.raise .sequenceError) ∨
    (s.status.bReady = true ∧ ∃ c, FailedFrame P 0 c s (bStep P s) ∧
      (s.failsAt P 0 = true ∧ c = .cipherFailure ∨
        s.failsAt P 0 = false ∧ 512 < (s.bBytes + 64).toNat ∧ s.failsAt P 1 = true ∧ c = .hashFailure)) ∨
    (s.status.bReady = true ∧ s.failsAt P 0 = false ∧ ¬ 512 < (s.bBytes + 64).toNat ∧
      bStep P s = ((s.beginCommand.afterDraws 1).withStream (s.stream.apply P)).setReady true) ∨
    (s.status.bReady = true ∧ s.failsAt P 0 = false ∧ 512 < (s.bBytes + 64).toNat ∧ s.failsAt P 1 = false ∧
      bStep P s = ((s.beginCommand.afterDraws 2).withStream ((s.stream.apply P).reseed P)).setReady true) := by
  cases hr : s.status.bReady
  · exact .inl ⟨rfl, by rw [bStep, if_pos hr]⟩
  refine .inr ?_
  have hstep : bStep P s = (((applyStream P s.beginCommand).andThen (reseedIfDue P)).andThen
      fun s1 => .done (s1.setReady true)).finish P 0 := by rw [bStep, if_neg (by simp [hr])]
  have hrefl : StreamFrame P 0 0 s.beginCommand (s.beginCommand.afterDraws 1) := ⟨rfl, .refl .., by simp⟩
  cases h0 : s.failsAt P 0
  · by_cases hb : 512 < (s.bBytes + 64).toNat
    · have hb' : reseedThreshold < ((s.beginCommand.afterDraws 1).withStream (s.beginCommand.stream.apply P)).bBytes.toNat := hb
      have hf1 : ((s.beginCommand.afterDraws 1).withStream (s.beginCommand.stream.apply P)).failsAt P 0 = s.failsAt P 1 :=
        State.failsAt_afterDraws P s.beginCommand 1 0
      cases h1 : s.failsAt P 1
      · refine .inr (.inr ⟨rfl, rfl, hb, rfl, ?_⟩)
        rw [hstep, applyStream_eq, State.failsAt_beginCommand, h0, if_neg (by simp), Progress.andThen_done, reseedIfDue_eq,
          if_pos hb', hf1, h1, if_neg (by simp)]
        simp only [State.withStream_stream, State.afterDraws_withStream, State.afterDraws_afterDraws,
          State.withStream_withStream]
        rfl
      · refine .inl ⟨rfl, .hashFailure, ?_, .inr ⟨rfl, hb, rfl, rfl⟩⟩
        rw [hstep, applyStream_eq, State.failsAt_beginCommand, h0, if_neg (by simp), Progress.andThen_done, reseedIfDue_eq,
          if_pos hb', hf1, h1, if_pos rfl, Progress.andThen_failed, Progress.finish_failed]
        have hf : StreamFrame P 0 0 s.beginCommand
            (((s.beginCommand.afterDraws 1).withStream (s.beginCommand.stream.apply P)).afterDraws 1) :=
          ⟨rfl, .refl .., by simp⟩
        obtain ⟨hc, he, ho, hd⟩ := hf.primitiveFailure (.inl rfl)
        exact ⟨hc, he, ho, hd⟩
    · refine .inr (.inl ⟨rfl, rfl, hb, ?_⟩)
      have hb' : ¬ reseedThreshold <
          ((s.beginCommand.afterDraws 1).withStream (s.beginCommand.stream.apply P)).bBytes.toNat := hb
      rw [hstep, applyStream_eq, State.failsAt_beginCommand, h0, if_neg (by simp), Progress.andThen_done, reseedIfDue_eq,
        if_neg hb']
      rfl
  · refine .inl ⟨rfl, .cipherFailure, ?_, .inl ⟨rfl, rfl⟩⟩
    rw [hstep, applyStream_eq, State.failsAt_beginCommand, h0, if_pos rfl, Progress.andThen_failed, Progress.andThen_failed,
      Progress.finish_failed]
    obtain ⟨hc, he, ho, hd⟩ := hrefl.primitiveFailure (.inr rfl)
    exact ⟨hc, he, ho, hd⟩

theorem bGenerate_cases (P : Params) (s : State) :
    ((s.count = 0 ∨ P.outCapacity < s.count.toNat) ∧
      bGenerate P s = (s.beginCommand.setOutCount 0).raise .invalidArgument) ∨
    (s.count ≠ 0 ∧ s.count.toNat ≤ P.outCapacity ∧
      ∃ c, FailedFrame P s.count.toNat c (s.setOutCount 0) (bGenerate P s)) ∨
    (s.count ≠ 0 ∧ s.count.toNat ≤ P.outCapacity ∧ ∃ u, StreamFrame P 0 s.count.toNat
        ((((s.beginCommand.setOutCount 0).afterDraws 1).withStream (Stream.init P s.bmat)).setReady true) u ∧
      s.failsAt P 0 = false ∧
      generateLoop P s.count.toNat s.count.toNat 0
        ((((s.beginCommand.setOutCount 0).afterDraws 1).withStream (Stream.init P s.bmat)).setReady true) = .done u ∧
      bGenerate P s = u.setOutCount s.count) := by
  by_cases hbad : s.count = 0 ∨ P.outCapacity < s.count.toNat
  · exact .inl ⟨hbad, by rw [bGenerate, if_pos hbad]⟩
  refine .inr ?_
  have h1 : s.count ≠ 0 := fun h => hbad (.inl h)
  have h2 : s.count.toNat ≤ P.outCapacity := by
    by_contra h
    exact hbad (.inr (by omega))
  have hgen : bGenerate P s =
      (((initStream P (s.beginCommand.setOutCount 0)).andThen (generateLoop P s.count.toNat s.count.toNat 0)).andThen
        fun s1 => .done (s1.setOutCount s.count)).finish P s.count.toNat := by rw [bGenerate, if_neg hbad]
  cases h0 : s.failsAt P 0
  · rw [initStream_eq, State.failsAt_setOutCount, State.failsAt_beginCommand, h0, if_neg (by simp),
      Progress.andThen_done] at hgen
    have hl := generateLoop_within P s.count.toNat s.count.toNat 0
      ((((s.beginCommand.setOutCount 0).afterDraws 1).withStream (Stream.init P s.bmat)).setReady true)
    change bGenerate P s = Progress.finish P s.count.toNat (Progress.andThen (generateLoop P s.count.toNat s.count.toNat 0
      ((((s.beginCommand.setOutCount 0).afterDraws 1).withStream (Stream.init P s.bmat)).setReady true)) _) at hgen
    revert hl hgen
    cases generateLoop P s.count.toNat s.count.toNat 0
        ((((s.beginCommand.setOutCount 0).afterDraws 1).withStream (Stream.init P s.bmat)).setReady true) with
    | done u =>
      intro hl hgen
      exact .inr ⟨h1, h2, u, hl, rfl, rfl, hgen⟩
    | failed c u =>
      intro hl hgen
      refine .inl ⟨h1, h2, c, ?_⟩
      rw [hgen, Progress.andThen_failed, Progress.finish_failed]
      obtain ⟨hc, he, ho, hd⟩ := hl.1.primitiveFailure hl.2
      exact ⟨hc, he, ho, Nat.le_trans (Nat.le_succ _) hd⟩
  · refine .inl ⟨h1, h2, .hashFailure, ?_⟩
    rw [hgen, initStream_eq, State.failsAt_setOutCount, State.failsAt_beginCommand, h0, if_pos rfl, Progress.andThen_failed,
      Progress.andThen_failed, Progress.finish_failed]
    have hf : StreamFrame P 0 s.count.toNat (s.beginCommand.setOutCount 0)
        { (s.beginCommand.setOutCount 0).afterDraws 1 with roll := (s.beginCommand.setOutCount 0).bmat } :=
      ⟨rfl, .refl .., by simp⟩
    obtain ⟨hc, he, ho, hd⟩ := hf.primitiveFailure (.inl rfl)
    exact ⟨hc, he, ho, hd⟩

end Sys2Proof.Machine
end

