-- ==== Sys2Proof/Laws/Window.lean ====
section
/-! SUPPORT. Laws of the host window (R55 to R64): which accesses are refused, what stands where, and what a write changes. -/

namespace Sys2Proof.Machine

theorem outCapacity_pos (P : Params) : 1 ≤ P.outCapacity := Nat.le_add_left ..

/-- The range of `OUT_CAPACITY` (R8): the window ends within the 32-bit offsets. -/
theorem windowEnd_le (P : Params) : windowEnd P ≤ 2 ^ 32 := by
  have := P.capacityIndex.isLt
  simp only [windowEnd, outBase, Params.outCapacity]
  omega

theorem outBase_lt_windowEnd (P : Params) : outBase < windowEnd P := by
  simp only [windowEnd, Params.outCapacity]
  omega

/-- An access is allowed exactly if `BUSY = 0` and it is 4 bytes at an aligned offset inside the window (R57, R58, R146). -/
theorem accessRefusal_eq_none {P : Params} {s : State} {a width : Nat} :
    accessRefusal P s a width = none ↔ s.status.busy = false ∧ width = 4 ∧ a % 4 = 0 ∧ a < windowEnd P := by
  have := outBase_lt_windowEnd P
  unfold accessRefusal
  cases s.status.busy
  · by_cases h1 : width = 4
    · by_cases h2 : a % 4 = 0
      · by_cases h3 : a < outBase
        · simp [h1, h2, h3, Nat.lt_trans h3 this]
        · by_cases h4 : a < windowEnd P <;> simp [h1, h2, h3, h4]
      · simp [h1, h2]
    · simp [h1]
  · simp

/-- The check of `WellFormed` on an access is the check the machine makes where `BUSY = 0` (R58, R146). -/
theorem read_wf_iff {P : Params} {s : State} {a : Word} {width : Nat} (h : s.status.busy = false) :
    (HostEvent.read a width).wf P = true ↔ accessRefusal P s a.toNat width = none := by
  rw [accessRefusal_eq_none]
  simp [HostEvent.wf, HostEvent.widthOk, HostEvent.aligned, HostEvent.inWindow, h, and_assoc]

/-- `CMD` stands at offset 0 alone (R22, R56). -/
theorem locate_eq_cmd {a : Nat} (h : locate a = .reg .cmd) : a = 0 := by
  unfold locate at h
  repeat' split at h
  all_goals first | assumption | rfl | cases h

/-- Word `i` of a buffer stands at `base + 4*i` (R56, R63). -/
theorem locate_bufWord (b : Buf) {i : Nat} (h : 4 * i < b.size) : locate (b.base + 4 * i) = .bufWord b i := by
  have hw : b.wordAtOffset (b.base + 4 * i) = .bufWord b i := by
    rw [Buf.wordAtOffset, Nat.add_sub_cancel_left, Nat.mul_div_cancel_left _ (by omega)]
  rw [← hw]
  cases b <;> simp only [Buf.base, Buf.size] at h ⊢ <;> simp (disch := omega) only [locate, outBase, if_pos, if_neg]

/-- Output word `i` stands at `0x1000 + 4*i` (R56, R64). -/
theorem locate_out (i : Nat) : locate (outAddr i) = .out i := by
  simp [locate, outAddr]

/-- The reserved ranges of the window (R56, R59). -/
theorem locate_reserved {a : Nat} (h : (0x070 ≤ a ∧ a < 0x080) ∨ (0x12C ≤ a ∧ a < 0x1000)) : locate a = .reserved := by
  rcases h with h | h <;> simp (disch := omega) only [locate, outBase, if_pos, if_neg]

/-- What a host write can change: the RW registers and buffers (R60, R61). -/
theorem State.writeAt_eq (a : Nat) (v : Word) (s : State) :
    ∃ c u d k i b, s.writeAt a v = { s with count := c, upperLimit := u, seedIn := d, akey := k, aiv := i, bmat := b } := by
  unfold State.writeAt
  split <;> exact ⟨_, _, _, _, _, _, rfl⟩

/-- What an offset reads as depends on everything but the host's list and the values read (R61). -/
theorem State.readAt_congr (P : Params) (s : State) (l : List HostEvent) (r : List Word) (a : Nat) :
    ({ s with pending := l, reads := r } : State).readAt P a = s.readAt P a := by
  unfold State.readAt
  split <;> rfl

end Sys2Proof.Machine
end

