-- ==== Sys2Proof/Laws/Step.lean ====
section
/-! SUPPORT. What one step can do, said once (R57, R61, R69, R79, R140). -/

namespace Sys2Proof.Machine

/-- The state a decoded command leads to: every command completes (R116, R152). -/
def commandState (P : Params) : Instr → State → State
  | .aLoadSeed => aLoadSeed
  | .aDerive => aDerive P
  | .aAdvance => aAdvance
  | .aGenerate => aGenerate P
  | .bInit => bInit P
  | .bStep => bStep P
  | .bGenerate => bGenerate P

theorem exec_eq (i : Instr) (s : State) : exec i s = .next (commandState Config.params i s) := by cases i <;> rfl

theorem exec_next_iff {i : Instr} {s t : State} : exec i s = .next t ↔ commandState Config.params i s = t := by
  rw [exec_eq]
  exact ⟨fun h => by injection h, fun h => by rw [h]⟩

/-- A step whose next access is an allowed read (R57, R61). -/
theorem step_read {s : State} {rest : List HostEvent} {a : Word} (hp : s.pending = .read a 4 :: rest)
    (hb : s.status.busy = false) (h4 : a.toNat % 4 = 0) (hl : a.toNat < windowEnd Config.params) :
    step s = .next { s with pending := rest, reads := s.reads ++ [s.readAt Config.params a.toNat] } := by
  have hr : accessRefusal Config.params { s with pending := rest } a.toNat 4 = none :=
    accessRefusal_eq_none.2 ⟨hb, rfl, h4, hl⟩
  rw [step, hp]
  simp only [perform, hr, State.recordRead]
  rw [← State.readAt_congr Config.params s rest s.reads]

/-- A step whose next access is an allowed write (R57, R61). -/
theorem step_write {s : State} {rest : List HostEvent} {a v : Word} (hp : s.pending = .write a 4 v :: rest)
    (hb : s.status.busy = false) (h4 : a.toNat % 4 = 0) (hl : a.toNat < windowEnd Config.params) :
    step s = performWrite a.toNat v { s with pending := rest } := by
  have hr : accessRefusal Config.params { s with pending := rest } a.toNat 4 = none :=
    accessRefusal_eq_none.2 ⟨hb, rfl, h4, hl⟩
  rw [step, hp]
  simp only [perform, hr]

/-- A write beside `CMD` is a write of the window (R60, R61). -/
theorem performWrite_of_ne_zero {a : Nat} (v : Word) (s : State) (h : a ≠ 0) :
    performWrite a v s = .next (s.writeAt a v) := by rw [performWrite, if_neg fun hl => h (locate_eq_cmd hl)]

/-- What a step that answers a next state does: nothing without an access left; else reset, a read, a write of the window, a decoded
command, or an illegal one. -/
theorem step_cases {s t : State} (h : step s = .next t) :
    (s.pending = [] ∧ t = s) ∨
    ∃ e rest, s.pending = e :: rest ∧
      ((e = .reset ∧ t = ({ s with pending := rest } : State).applyReset) ∨
       (∃ a, e = .read a 4 ∧ s.status.busy = false ∧
          t = { s with pending := rest, reads := s.reads ++ [s.readAt Config.params a.toNat] }) ∨
       (∃ a v, e = .write a 4 v ∧ s.status.busy = false ∧ t = ({ s with pending := rest } : State).writeAt a.toNat v) ∨
       (∃ v i, e = .write 0 4 v ∧ s.status.busy = false ∧ decodeWord v = .ok i ∧
          t = commandState Config.params i { s with pending := rest }) ∨
       (∃ v, e = .write 0 4 v ∧ s.status.busy = false ∧ (∃ x, decodeWord v = .error x) ∧
          t = ({ s with pending := rest } : State).illegalCommand)) := by
  unfold step at h
  split at h
  · rename_i hp
    injection h with h
    exact .inl ⟨hp, h.symm⟩
  · rename_i e rest hp
    refine .inr ⟨e, rest, hp, ?_⟩
    cases e with
    | reset =>
      injection h with h
      exact .inl ⟨rfl, h.symm⟩
    | read a width =>
      simp only [perform] at h
      split at h
      · cases h
      · rename_i hr
        obtain ⟨hb, rfl, -, -⟩ := accessRefusal_eq_none.1 hr
        injection h with h
        refine .inr (.inl ⟨a, rfl, hb, ?_⟩)
        rw [← h, ← State.readAt_congr Config.params s rest s.reads]
        rfl
    | write a width v =>
      simp only [perform] at h
      split at h
      · cases h
      · rename_i hr
        obtain ⟨hb, rfl, hal, hlt⟩ := accessRefusal_eq_none.1 hr
        unfold performWrite at h
        split at h
        · rename_i hl
          obtain rfl : a = 0 := BitVec.eq_of_toNat_eq (locate_eq_cmd hl)
          unfold issueCommand at h
          split at h
          · rename_i i hd
            exact .inr (.inr (.inr (.inl ⟨v, i, rfl, hb, hd, (exec_next_iff.1 h).symm⟩)))
          · rename_i x hd
            injection h with h
            exact .inr (.inr (.inr (.inr ⟨v, rfl, hb, ⟨x, hd⟩, h.symm⟩)))
        · injection h with h
          exact .inr (.inr (.inl ⟨a, v, rfl, hb, h.symm⟩))

end Sys2Proof.Machine
end

