-- ==== Sys2Proof/Laws/HostProgram.lean ====
section
/-! SUPPORT. Laws of the host program syntax: what the accesses of `wrbuf` do to a buffer (R63, R84). -/

namespace Sys2Proof.Machine

/-- A byte string after the writes of the words of `l` from word `i` on. -/
def setWords {n : Nat} (b : Bytes n) : Nat → List Byte → Bytes n
  | i, b0 :: b1 :: b2 :: b3 :: r => setWords (setWordAt b i (le32 #v[b0, b1, b2, b3])) (i + 1) r
  | _, _ => b

/-- The words written are the bytes of `l`, and no other byte changes (R63). -/
theorem byteAt_setWords {n : Nat} (k i : Nat) (l : List Byte) (b : Bytes n) {j : Nat} (hl : l.length = 4 * k) (hj : j < n) :
    byteAt (setWords b i l) j =
      if 4 * i ≤ j ∧ j < 4 * (i + k) then (l[j - 4 * i]?).getD 0 else byteAt b j := by
  induction k generalizing i l b with
  | zero =>
    obtain rfl : l = [] := List.length_eq_zero_iff.1 (by omega)
    rw [if_neg (by omega)]
    rfl
  | succ k ih =>
    match l, hl with
    | b0 :: b1 :: b2 :: b3 :: r, hl =>
      simp only [List.length_cons] at hl
      rw [setWords, ih (i + 1) r _ (by omega)]
      by_cases h1 : 4 * (i + 1) ≤ j ∧ j < 4 * (i + 1 + k)
      · rw [if_pos h1, if_pos (by omega), show j - 4 * i = j - 4 * (i + 1) + 4 by omega]
        rfl
      · rw [if_neg h1, byteAt_setWordAt _ _ _ hj]
        by_cases h2 : j / 4 = i
        · rw [if_pos h2, if_pos (by omega)]
          have hv : (le32 #v[b0, b1, b2, b3]).extractLsb' (8 * (j % 4)) 8 = byteAt #v[b0, b1, b2, b3] (j % 4) := by
            rw [← byteAt_leBytes32 _ (Nat.mod_lt j (by omega)), leBytes32_le32]
          rw [hv, show j - 4 * i = j % 4 by omega]
          have hm : j % 4 = 0 ∨ j % 4 = 1 ∨ j % 4 = 2 ∨ j % 4 = 3 := by omega
          rcases hm with h | h | h | h <;> rw [h] <;> rfl
        · rw [if_neg h2, if_neg (by omega)]

/-- The words of a whole byte string replace every byte (R84). -/
theorem setWords_toList {n : Nat} (a b : Bytes n) (h : n % 4 = 0) : setWords a 0 b.toList = b := by
  refine bytes_ext fun j hj => ?_
  rw [byteAt_setWords (n / 4) 0 b.toList a (by simp; omega) hj, if_pos (by omega), byteAt_of_lt b hj]
  simp [hj]

/-- The state after the writes of `wrbuf` (R84), word by word. -/
def State.writeWords (b : Buf) : Nat → List Byte → State → State
  | i, b0 :: b1 :: b2 :: b3 :: r, s => State.writeWords b (i + 1) r (s.writeAt (b.base + 4 * i) (le32 #v[b0, b1, b2, b3]))
  | _, _, s => s

theorem Buf.size_le (b : Buf) : b.base + b.size ≤ 0x12C ∧ 0 < b.base ∧ b.base % 4 = 0 := by cases b <;> decide

/-- A run's first step. -/
theorem run_succ {k : Nat} {s t : State} (h : step s = .next t) : Host.Core.run core (k + 1) s = Host.Core.run core k t := by
  have h' : core.step s = .next t := h
  simp only [Host.Core.run, h']

/-- The accesses of `wrbuf` are performed one after another (R69, R84). -/
theorem run_wrbuf (b : Buf) (k i : Nat) (l : List Byte) (s : State) (rest : List HostEvent) (hb : s.status.busy = false)
    (hl : l.length = 4 * k) (hi : 4 * (i + k) ≤ b.size) (hp : s.pending = wrbufAccesses b i l ++ rest) :
    Host.Core.run core k s = .next (State.writeWords b i l { s with pending := rest }) := by
  induction k generalizing i l s with
  | zero =>
    obtain rfl : l = [] := List.length_eq_zero_iff.1 (by omega)
    have hr : s.pending = rest := hp
    rw [← hr]
    rfl
  | succ k ih =>
    match l, hl with
    | b0 :: b1 :: b2 :: b3 :: r, hl =>
      simp only [List.length_cons] at hl
      have hs := b.size_le
      have hw := outBase_lt_windowEnd Config.params
      have ho : outBase = 4096 := rfl
      have ha : (RegRef.bufWord b i).offset.toNat = b.base + 4 * i := by
        simp only [RegRef.offset, BitVec.toNat_ofNat]
        omega
      have hstep : step s = .next (({ s with pending := wrbufAccesses b (i + 1) r ++ rest } : State).writeAt
          (b.base + 4 * i) (le32 #v[b0, b1, b2, b3])) := by
        rw [step_write hp hb (by rw [ha]; omega) (by rw [ha]; omega), ha, performWrite_of_ne_zero _ _ (by omega)]
        rfl
      obtain ⟨c, u, d, x, y, z, he⟩ := State.writeAt_eq (b.base + 4 * i) (le32 #v[b0, b1, b2, b3])
        { s with pending := wrbufAccesses b (i + 1) r ++ rest }
      rw [run_succ hstep]
      refine (ih (i + 1) r _ ?_ (by omega) (by omega) ?_).trans ?_
      · rw [he]
        exact hb
      · rw [he]
      · rw [State.writeWords]
        congr 2
        simp only [State.writeAt]
        split <;> rfl

theorem State.writeWords_akey (k i : Nat) (l : List Byte) (s : State) (hl : l.length = 4 * k) (hi : i + k ≤ 8) :
    State.writeWords .akey i l s = { s with akey := setWords s.akey i l } := by
  induction k generalizing i l s with
  | zero =>
    obtain rfl : l = [] := List.length_eq_zero_iff.1 (by omega)
    rfl
  | succ k ih =>
    match l, hl with
    | b0 :: b1 :: b2 :: b3 :: r, hl =>
      simp only [List.length_cons] at hl
      rw [State.writeWords, ih (i + 1) r _ (by omega) (by omega), State.writeAt,
        locate_bufWord .akey (by simp only [Buf.size]; omega), setWords]

theorem State.writeWords_aiv (k i : Nat) (l : List Byte) (s : State) (hl : l.length = 4 * k) (hi : i + k ≤ 4) :
    State.writeWords .aiv i l s = { s with aiv := setWords s.aiv i l } := by
  induction k generalizing i l s with
  | zero =>
    obtain rfl : l = [] := List.length_eq_zero_iff.1 (by omega)
    rfl
  | succ k ih =>
    match l, hl with
    | b0 :: b1 :: b2 :: b3 :: r, hl =>
      simp only [List.length_cons] at hl
      rw [State.writeWords, ih (i + 1) r _ (by omega) (by omega), State.writeAt,
        locate_bufWord .aiv (by simp only [Buf.size]; omega), setWords]

theorem State.writeWords_bmat (k i : Nat) (l : List Byte) (s : State) (hl : l.length = 4 * k) (hi : i + k ≤ 16) :
    State.writeWords .bmat i l s = { s with bmat := setWords s.bmat i l } := by
  induction k generalizing i l s with
  | zero =>
    obtain rfl : l = [] := List.length_eq_zero_iff.1 (by omega)
    rfl
  | succ k ih =>
    match l, hl with
    | b0 :: b1 :: b2 :: b3 :: r, hl =>
      simp only [List.length_cons] at hl
      rw [State.writeWords, ih (i + 1) r _ (by omega) (by omega), State.writeAt,
        locate_bufWord .bmat (by simp only [Buf.size]; omega), setWords]

end Sys2Proof.Machine
end

