-- ==== Sys2Proof/Laws/Isolation.lean ====
section
/-! SUPPORT. Laws of isolation between the modes (R51): replacing the other mode's state, the host's list and the values read commutes with
every part of a command. -/

namespace Sys2Proof.Machine

/-- The state with the Mode B state, the host's list and the values read of `o`. -/
def State.withModeBOf (s o : State) : State :=
  { s with
    roll := o.roll, bkey := o.bkey, bnonce := o.bnonce, bCounter := o.bCounter, bBytes := o.bBytes, reseedCount := o.reseedCount
    bmat := o.bmat, status := s.status.withReady o.status.bReady, pending := o.pending, reads := o.reads }

/-- The state with the Mode A state, the host's list and the values read of `o`. -/
def State.withModeAOf (s o : State) : State :=
  { s with
    lcgState := o.lcgState, seedOut := o.seedOut, result := o.result, akey := o.akey, aiv := o.aiv, seedIn := o.seedIn
    upperLimit := o.upperLimit
    status := { s.status with fallback := o.status.fallback, aSeeded := o.status.aSeeded }
    pending := o.pending, reads := o.reads }

/-- A part of a command's end, with its state changed by `f`. -/
def Progress.map (f : State → State) : Progress → Progress
  | .done s => .done (f s)
  | .failed c s => .failed c (f s)

/-- The draws of Mode A do not depend on the Mode B state (R93). -/
theorem drawWords_withModeBOf (o : State) (ul : Word) (k i : Nat) (l : DWord) (s : State) :
    drawWords ul k i l (s.withModeBOf o) = ((drawWords ul k i l s).1, (drawWords ul k i l s).2.withModeBOf o) := by
  induction k generalizing i l s with
  | zero => rfl
  | succ k ih =>
    rw [drawWords, drawWords, ← ih]
    rfl

/-- Nothing in the application of `S` depends on the Mode A state (R103). -/
theorem applyStream_withModeAOf (P : Params) (o s : State) :
    applyStream P (s.withModeAOf o) = (applyStream P s).map (State.withModeAOf · o) := by
  have h : (s.withModeAOf o).failsAt P 0 = s.failsAt P 0 := rfl
  rw [applyStream_eq, applyStream_eq, h]
  split <;> rfl

/-- Nothing in the reseed check depends on the Mode A state (R104). -/
theorem reseedIfDue_withModeAOf (P : Params) (o s : State) :
    reseedIfDue P (s.withModeAOf o) = (reseedIfDue P s).map (State.withModeAOf · o) := by
  have h : (s.withModeAOf o).failsAt P 0 = s.failsAt P 0 := rfl
  have hb : (s.withModeAOf o).bBytes = s.bBytes := rfl
  rw [reseedIfDue_eq, reseedIfDue_eq, h, hb]
  split
  · split <;> rfl
  · rfl

/-- Nothing in the initialisation depends on the Mode A state (R105). -/
theorem initStream_withModeAOf (P : Params) (o s : State) :
    initStream P (s.withModeAOf o) = (initStream P s).map (State.withModeAOf · o) := by
  have h : (s.withModeAOf o).failsAt P 0 = s.failsAt P 0 := rfl
  rw [initStream_eq, initStream_eq, h]
  split <;> rfl

/-- The copy of lanes does not depend on the Mode A state (R107). -/
theorem copyLanes_withModeAOf (o : State) (w k : Nat) (s : State) :
    copyLanes w k (s.withModeAOf o) = (copyLanes w k s).withModeAOf o := by
  induction k with
  | zero => rfl
  | succ k ih =>
    rw [copyLanes, copyLanes, ih]
    rfl

/-- Parts of a command that commute with a change of the state do so one after the other. -/
theorem Progress.map_andThen (f : State → State) (p : Progress) {g : State → Progress} (hg : ∀ s, g (f s) = (g s).map f) :
    (p.map f).andThen g = (p.andThen g).map f := by
  cases p with
  | done s => exact hg s
  | failed c s => rfl

theorem generateIteration_withModeAOf (P : Params) (n w : Nat) (o s : State) :
    generateIteration P n w (s.withModeAOf o) = (generateIteration P n w s).map (State.withModeAOf · o) := by
  rw [generateIteration, generateIteration, applyStream_withModeAOf]
  refine Progress.map_andThen _ _ fun s1 => ?_
  rw [copyLanes_withModeAOf, reseedIfDue_withModeAOf]

/-- The loop of `B_GENERATE` does not depend on the Mode A state (R107). -/
theorem generateLoop_withModeAOf (P : Params) (n fuel w : Nat) (o s : State) :
    generateLoop P n fuel w (s.withModeAOf o) = (generateLoop P n fuel w s).map (State.withModeAOf · o) := by
  induction fuel generalizing w s with
  | zero => rfl
  | succ fuel ih =>
    rw [generateLoop, generateLoop]
    split
    · rw [generateIteration_withModeAOf]
      exact Progress.map_andThen _ _ fun s1 => ih _ s1
    · rfl

theorem scrambleOut_withModeAOf (P : Params) (d n : Nat) (o s : State) :
    scrambleOut P d n (s.withModeAOf o) = (scrambleOut P d n s).withModeAOf o := by
  induction n with
  | zero => rfl
  | succ n ih =>
    rw [scrambleOut, scrambleOut, ih]
    rfl

/-- What a primitive failure leaves does not depend on the Mode A state (R126, R127). -/
theorem primitiveFailure_withModeAOf (P : Params) (c : ErrorCode) (n : Nat) (o s : State) :
    (s.withModeAOf o).primitiveFailure P c n = (s.primitiveFailure P c n).withModeAOf o := by
  have h := scrambleOut_withModeAOf P s.draws n o (((s.raise c).setReady false).scrambleStream P)
  rw [State.primitiveFailure, State.primitiveFailure]
  exact congrArg (fun t => ({ t with draws := s.draws + 1 } : State)) h

theorem Progress.finish_withModeAOf (P : Params) (n : Nat) (o : State) (p : Progress) :
    (p.map (State.withModeAOf · o)).finish P n = (p.finish P n).withModeAOf o := by
  cases p with
  | done s => rfl
  | failed c s => exact primitiveFailure_withModeAOf P c n o s

end Sys2Proof.Machine
end

