-- ==== Sys2Proof/Laws/PerInstr.lean ====
section
/-! SUPPORT. Statements for every instruction as syntax: the fields of its command word (R76, R78). -/

namespace Sys2Proof.Laws.CommandFields

open Sys2Proof

/-- The word of a command is well-formed, bits 31:5 of it are 0, bit 4 is the command's mode and bits 3:0 are its operation (R76, R81). -/
def Statement (i : Instr) : Prop :=
  i.wf = true ∧ CommandWord.wf (encode i) = true ∧ (encode i).extractLsb' 5 27 = 0 ∧
    (encode i).extractLsb' 4 1 = i.modeBit ∧ (encode i).extractLsb' 0 4 = i.func

theorem aLoadSeed : Statement .aLoadSeed := ⟨rfl, rfl, rfl, rfl, rfl⟩

theorem aDerive : Statement .aDerive := ⟨rfl, rfl, rfl, rfl, rfl⟩

theorem aAdvance : Statement .aAdvance := ⟨rfl, rfl, rfl, rfl, rfl⟩

theorem aGenerate : Statement .aGenerate := ⟨rfl, rfl, rfl, rfl, rfl⟩

theorem bInit : Statement .bInit := ⟨rfl, rfl, rfl, rfl, rfl⟩

theorem bStep : Statement .bStep := ⟨rfl, rfl, rfl, rfl, rfl⟩

theorem bGenerate : Statement .bGenerate := ⟨rfl, rfl, rfl, rfl, rfl⟩

end Sys2Proof.Laws.CommandFields
end

