-- ==== Sys2Proof/Tests/Slice0.lean ====
section
/-! SUPPORT. The model's own tests: words written out bit by bit from R76 and R78, an ill-formed term for each check of WellFormed, at most
two small cases per command with the values of spec/95_test_vectors.md, and a witness for the hypotheses of every statement of
Certificates/Slice0/Obligations.lean. -/

namespace Sys2Proof.Tests

open Sys2Proof Sys2Proof.Machine

/-! ### The command word (R76, R78, R80; vectors E-1 to E-8): RSV, OPX, MODE, FUNC -/

theorem test_decode_aLoadSeed : decodeWord 0b000000000000000000000000_000_0_0001 = .ok .aLoadSeed := by decide

theorem test_decode_aDerive : decodeWord 0b000000000000000000000000_000_0_0010 = .ok .aDerive := by decide

theorem test_decode_aAdvance : decodeWord 0b000000000000000000000000_000_0_0011 = .ok .aAdvance := by decide

theorem test_decode_aGenerate : decodeWord 0b000000000000000000000000_000_0_0100 = .ok .aGenerate := by decide

theorem test_decode_bInit : decodeWord 0b000000000000000000000000_000_1_0001 = .ok .bInit := by decide

theorem test_decode_bStep : decodeWord 0b000000000000000000000000_000_1_0010 = .ok .bStep := by decide

theorem test_decode_bGenerate : decodeWord 0b000000000000000000000000_000_1_0011 = .ok .bGenerate := by decide

theorem test_decode_zero_word : decodeWord 0x00000000 = .error .unassignedOpcode := by decide

theorem test_decode_after_last_modeA : decodeWord 0x00000005 = .error .unassignedOpcode := by decide

theorem test_decode_modeB_func_zero : decodeWord 0x00000010 = .error .unassignedOpcode := by decide

theorem test_decode_after_last_modeB : decodeWord 0x00000014 = .error .unassignedOpcode := by decide

theorem test_decode_opx : decodeWord 0x00000023 = .error .unassignedOpcode := by decide

theorem test_decode_rsv_assigned_opcode : decodeWord 0x00000103 = .error .reservedBits := by decide

theorem test_decode_rsv_unassigned_opcode : decodeWord 0x00000105 = .error .reservedBits := by decide

theorem test_decode_rsv_top_bit : decodeWord 0x80000001 = .error .reservedBits := by decide

theorem test_decode_bytes : decode [0x12, 0, 0, 0, 0xFF] = .ok (.bStep, [0xFF]) := by decide

theorem test_decode_truncated : decode [0x12, 0, 0] = .error .truncated := by decide

theorem test_encode_bStep : encode .bStep = 0x00000012 := by decide

theorem test_decodeTableWord : decodeTableWord 32 0x13 = some .bGenerate ∧ decodeTableWord 8 0x04 = some .aGenerate ∧
    decodeTableWord 32 0x113 = none := by decide

/-! ### The checks of WellFormed, each with a term it refuses -/

/-- Parameters for tests (95_test_vectors.md sections 2.3 and 3.1): the stubs, no failures, and an `OUT_CAPACITY` of 300. -/
def stubP : Params where
  blockEncrypt128 k m := Vector.ofFn fun i => byteAt m ((i.val + 1) % 16) ^^^ byteAt k i.val
  hash384 m := Vector.ofFn fun i => byteAt m i.val ^^^ 0x5A ^^^ BitVec.ofNat 8 i.val
  streamApply k n c b := Vector.ofFn fun i =>
    byteAt b i.val ^^^ byteAt k (i.val % 32) ^^^ byteAt n (i.val % 12) ^^^ byteAt (leBytes32 c) (i.val % 4) ^^^ BitVec.ofNat 8 i.val
  primFail _ := false
  unspecifiedByte _ _ := 0xEE
  capacityIndex := 299

theorem test_wf_rsv : CommandWord.rsvClear 0x00000103 = false ∧ CommandWord.wf 0x00000103 = false := by decide

theorem test_wf_opx : CommandWord.opxClear 0x00000023 = false ∧ CommandWord.wf 0x00000023 = false := by decide

theorem test_wf_func : CommandWord.funcAssigned 0x00000014 = false ∧ CommandWord.wf 0x00000014 = false ∧
    CommandWord.wf 0x00000004 = true := by decide

theorem test_wf_instr : (Instr.bGenerate).wf = true := by decide

theorem test_wf_access_width : (HostEvent.read 0x004 2).widthOk = false ∧ (HostEvent.read 0x004 2).wf stubP = false := by decide

theorem test_wf_access_alignment : (HostEvent.write 0x006 4 0).aligned = false ∧ (HostEvent.write 0x006 4 0).wf stubP = false := by
  decide

theorem test_wf_access_window : (HostEvent.read 0x14B0 4).inWindow stubP = false ∧ (HostEvent.read 0x14B0 4).wf stubP = false ∧
    (HostEvent.read 0x14AC 4).wf stubP = true := by decide

theorem test_wf_reset : HostEvent.reset.wf stubP = true := by decide

theorem test_wf_regref : (RegRef.bufWord .bnonce 3).wf stubP = false ∧ (RegRef.bufWord .bnonce 2).wf stubP = true ∧
    (RegRef.out 300).wf stubP = false ∧ (RegRef.raw 0x03E).wf stubP = false ∧ (RegRef.raw 0x14B0).wf stubP = false := by decide

theorem test_wf_line : (Line.wrbuf .aiv (List.replicate 15 0)).wf stubP = false ∧
    (Line.wrbuf .aiv (List.replicate 16 0)).wf stubP = true ∧ (Line.wr (.out 300) 0).wf stubP = false ∧
    (Line.rd (.raw 0x001)).wf stubP = false := by decide

/-! ### The commands, one step each -/

/-- Vector A-LD-1. -/
theorem test_aLoadSeed_one : (aLoadSeed { State.reset with seedIn := 1 }).lcgState = 1 ∧
    (aLoadSeed { State.reset with seedIn := 1 }).seedOut = 1 ∧
    (aLoadSeed { State.reset with seedIn := 1 }).status.word = 0x00000010 := by decide

/-- Vector A-LD-2: the seed is zero-extended (R88). -/
theorem test_aLoadSeed_zero_extends : (aLoadSeed { State.reset with seedIn := 0xFFFFFFFF }).lcgState = 0x00000000FFFFFFFF := by decide

/-- Vector A-DER-2: the key is the ASCII string of the vector, the IV too. -/
theorem test_aDerive_ascii_material :
    let t := aDerive stubP { State.reset with
      akey := #v[0x73, 0x63, 0x70, 0x72, 0x6e, 0x67, 0x2d, 0x74, 0x65, 0x73, 0x74, 0x2d, 0x6b, 0x65, 0x79, 0x2d,
                 0x30, 0x31, 0x32, 0x33, 0x34, 0x35, 0x36, 0x37, 0x38, 0x39, 0x61, 0x62, 0x63, 0x64, 0x65, 0x66]
      aiv := #v[0x69, 0x76, 0x2d, 0x66, 0x6f, 0x72, 0x2d, 0x74, 0x65, 0x73, 0x74, 0x2d, 0x30, 0x30, 0x30, 0x31] }
    t.seedOut = 0x411D1B48 ∧ t.lcgState = 0x00000000411D1B48 ∧ t.status.word = 0x00000010 := by decide +kernel

/-- Vector A-DER-4: `E` fails on its second invocation. -/
theorem test_aDerive_fallback : (aDerive stubP { State.reset with primDraws := [false, true] }).lcgState = 1 ∧
    (aDerive stubP { State.reset with primDraws := [false, true] }).status.word = 0x00000018 := by decide +kernel

/-- A seeded Mode A state with LCG state and bound as given. -/
def seededAt (l : DWord) (ul : Word) : State :=
  { State.reset with lcgState := l, upperLimit := ul, status := { Status.reset with aSeeded := true } }

/-- Vector A-ADV-1, step 1. -/
theorem test_aAdvance_first : (aAdvance (seededAt 1 100)).lcgState = 0x0000000041C67EA6 ∧
    (aAdvance (seededAt 1 100)).result = 37 := by decide

/-- Vector A-ADV-6, steps 1 and 2: the divisor is taken in 64 bits (R87). -/
theorem test_aAdvance_wide_divisor : (aAdvance (seededAt 1 0x80000001)).result = 0 ∧
    (aAdvance (seededAt 0x0000000041C67EA6 0x80000001)).result = 283531732 := by decide

/-- Vector A-GEN-3: the fallback sequence. -/
theorem test_aGenerate_fallback :
    let t := aGenerate stubP { State.reset with count := 5, upperLimit := 100, primDraws := [true] }
    (List.range 5).map (t.outWord stubP) = [37, 9, 16, 69, 40] ∧ t.lcgState = 0x0522D718F94BDF32 ∧ t.outCount = 5 ∧
      t.status.word = 0x00000018 := by decide +kernel

/-- Vector A-GEN-E2. -/
theorem test_aGenerate_zero_count :
    (aGenerate stubP { State.reset with upperLimit := 100, outCount := 3 }).outCount = 0 ∧
      (aGenerate stubP { State.reset with upperLimit := 100 }).status.word = 0x00000306 := by decide

/-- Vector B-INIT-1. -/
theorem test_bInit_zero_material :
    let t := bInit stubP State.reset
    t.bCounter = 0x75747776 ∧ wordAt t.bkey 7 = 0x45444746 ∧ wordAt t.bnonce 2 = 0x71707372 ∧ t.status.word = 0x00000020 := by
  decide +kernel

/-- Vector B-INIT-E1. -/
theorem test_bInit_hash_failure : (bInit stubP { State.reset with primDraws := [true] }).status.word = 0x00000406 := by decide

/-- Vector B-STEP trace, step 1. -/
theorem test_bStep_first :
    let t := bStep stubP (bInit stubP State.reset)
    wordAt t.roll 0 = 0x56565656 ∧ wordAt t.roll 15 = 0x76767676 ∧ t.bCounter = 0x75747777 ∧ t.bBytes = 64 := by decide +kernel

/-- R104 by hand: the application takes 512 bytes to 576; the stub's block is `i` at byte `i`, its digest `5A` at every byte. -/
theorem test_bStep_reseeds :
    let t := bStep stubP { State.reset with bBytes := 512, status := { Status.reset with bReady := true } }
    t.bCounter = 0x5A5A5A5A ∧ t.bBytes = 0 ∧ t.reseedCount = 1 ∧ wordAt t.roll 0 = 0x03020100 := by decide +kernel

/-- Vector B-GEN-2, its partial second batch. -/
theorem test_bGenerate_twenty :
    let t := bGenerate stubP { State.reset with count := 20 }
    t.outWord stubP 0 = 0x56565656 ∧ t.outWord stubP 15 = 0x76767676 ∧ t.outWord stubP 16 = 0x00000001 ∧
      t.outWord stubP 20 = 0xEEEEEEEE ∧ t.bCounter = 0x75747778 ∧ t.bBytes = 128 := by decide +kernel

/-- Vector B-GEN-E4: `S` fails at the second application. -/
theorem test_bGenerate_cipher_failure :
    let t := bGenerate stubP { State.reset with count := 20, primDraws := [false, false, true] }
    t.status.word = 0x00000506 ∧ t.outCount = 0 := by decide +kernel

/-! ### The host's accesses, one step each -/

/-- The machine with one host event to perform. -/
def withEvent (e : HostEvent) (s : State) : State := { s with pending := [e] }

/-- R63: a write of `AKEY_W1` sets bytes 4 to 7, least significant first. -/
theorem test_step_write_buffer :
    step (withEvent (.write 0x044 4 0x742D676E) State.reset) =
      .next { State.reset with akey := setWordAt State.reset.akey 1 0x742D676E } ∧
    (setWordAt State.reset.akey 1 0x742D676E).toList.take 9 = [0, 0, 0, 0, 0x6e, 0x67, 0x2d, 0x74, 0] := ⟨rfl, by decide⟩

/-- Vector E-6: an illegal word, from reset. -/
theorem test_step_illegal : ∃ t, step (withEvent (.write 0 4 0x103) State.reset) = .next t ∧ t.status.word = 0x00000106 :=
  ⟨_, rfl, by decide⟩

/-- R41: `ID`. -/
theorem test_step_read_id : step (withEvent (.read 0x034 4) State.reset) = .next { State.reset with reads := [0x53430001] } := rfl

/-- Program P1 up to its first `RESULT`: the lines, their accesses, and the words the host reads. -/
theorem test_program_accesses : expandProgram [.wr (.reg .seedIn) 1, .cmd .aLoadSeed, .rd64, .wrbuf .aiv [1, 2, 3, 4], .check] =
    [.write 0x010 4 1, .write 0x000 4 1, .read 0x020 4, .read 0x024 4, .write 0x060 4 0x04030201, .read 0x004 4] := by decide

/-- The word that `withFetchWord` places is the command that the next step runs. -/
theorem test_withFetchWord : ∃ t, step (State.reset.withFetchWord 32 0x01) = .next t ∧ t.status.aSeeded = true ∧ t.pending = [] :=
  ⟨_, rfl, rfl, rfl⟩

/-! ### Witnesses: states and operands that meet the hypotheses of each statement -/

/-- A state with every enable set: seeded, a valid stream state with `bytes` counted, one word to generate below 100, and the draws of the
environment as given. -/
def ready (bytes : Word) (fails : List Bool) : State :=
  { State.reset with
    count := 1, upperLimit := 100, bBytes := bytes, primDraws := fails
    status := { Status.reset with aSeeded := true, bReady := true } }

/-- The same with an operand of its own. -/
def readyFor (count ul : Word) : State := { ready 0 [] with count := count, upperLimit := ul }

theorem one_le_capacity : (1 : Word).toNat ≤ Config.params.outCapacity := outCapacity_pos _

theorem capacity_lt : Config.params.outCapacity < (0xFFFFFFFF : Word).toNat := by
  have := windowEnd_le Config.params
  simp only [windowEnd, outBase] at this
  have h : (0xFFFFFFFF : Word).toNat = 4294967295 := rfl
  omega

/-- The offset of the last output word (R55). -/
def lastOffset : Word := BitVec.ofNat 32 (windowEnd Config.params - 4)

theorem lastOffset_spec : lastOffset.toNat % 4 = 0 ∧ lastOffset.toNat < windowEnd Config.params ∧ outBase ≤ lastOffset.toNat := by
  have h := windowEnd_le Config.params
  have hp := outCapacity_pos Config.params
  have hl : lastOffset.toNat = windowEnd Config.params - 4 := by
    simp only [lastOffset, BitVec.toNat_ofNat]
    exact Nat.mod_eq_of_lt (by simp only [windowEnd, outBase] at h ⊢; omega)
  rw [hl]
  simp only [windowEnd, outBase]
  omega

theorem noFailure_of_draws (n : Nat) (s : State) (h : ∀ k, k < n → s.primDraws[k]? = some false) : s.NoFailure Config.params n :=
  fun k hk => by simp [State.failsAt, h k hk]

theorem witness_ResetEventRestoresReset : (withEvent .reset State.reset).pending = .reset :: [] := rfl

theorem witness_StepRunsDecodedCommand :
    (withEvent (.write 0 4 0x13) State.reset).status.busy = false ∧
    (withEvent (.write 0 4 0x13) State.reset).pending = .write 0 4 0x13 :: [] ∧ decodeWord 0x13 = .ok .bGenerate :=
  ⟨rfl, rfl, by decide⟩

theorem witness_IllegalCommandIsRecorded_reserved :
    (withEvent (.write 0 4 0x80000003) State.reset).status.busy = false ∧
    (withEvent (.write 0 4 0x80000003) State.reset).pending = .write 0 4 0x80000003 :: [] ∧
    (0x80000003 : Word).extractLsb' 8 24 ≠ 0 := ⟨rfl, rfl, by decide⟩

theorem witness_IllegalCommandIsRecorded_opcode :
    (withEvent (.write 0 4 0x14) State.reset).status.busy = false ∧
    (withEvent (.write 0 4 0x14) State.reset).pending = .write 0 4 0x14 :: [] ∧
    (0x14 : Word).extractLsb' 0 8 ∉ [0x01#8, 0x02#8, 0x03#8, 0x04#8, 0x11#8, 0x12#8, 0x13#8] := ⟨rfl, rfl, by decide⟩

theorem witness_IdleEngineKeepsItsState : State.reset.pending = [] := rfl

theorem witness_HostReadChangesNothing :
    (withEvent (.read lastOffset 4) State.reset).status.busy = false ∧
    (withEvent (.read lastOffset 4) State.reset).pending = .read lastOffset 4 :: [] ∧
    lastOffset.toNat % 4 = 0 ∧ lastOffset.toNat < windowEnd Config.params :=
  ⟨rfl, rfl, lastOffset_spec.1, lastOffset_spec.2.1⟩

theorem witness_HostWriteStoresTheValue :
    (∀ a : Word, a ∈ [0x008, 0x00C, 0x010, 0x040, 0x05C, 0x060, 0x06C, 0x080, 0x0BC] →
      (withEvent (.write a 4 5) State.reset).status.busy = false ∧
      (withEvent (.write a 4 5) State.reset).pending = .write a 4 5 :: []) ∧
    (0x040 : Word).toNat = 0x040 + 4 * 0 ∧ (0x05C : Word).toNat = 0x040 + 4 * 7 ∧ (0x060 : Word).toNat = 0x060 + 4 * 0 ∧
    (0x06C : Word).toNat = 0x060 + 4 * 3 ∧ (0x080 : Word).toNat = 0x080 + 4 * 0 ∧ (0x0BC : Word).toNat = 0x080 + 4 * 15 :=
  ⟨fun _ _ => ⟨rfl, rfl⟩, by decide⟩

theorem witness_ReservedAndReadOnlyOffsets_read :
    (∀ a : Nat, a ∈ [0, 0x03C, 0x070, 0x07C, 0x12C, 0xFFC] →
      a % 4 = 0 ∧ (a = 0 ∨ a = 0x03C ∨ (0x070 ≤ a ∧ a < 0x080) ∨ (0x12C ≤ a ∧ a < 0x1000))) := by decide

theorem witness_ReservedAndReadOnlyOffsets_write :
    (∀ a : Word, a ∈ [0x004, 0x014, 0x03C, 0x070, 0x07C, 0x0C0, 0xFFC, 0x1000] →
      (withEvent (.write a 4 5) State.reset).status.busy = false ∧
      (withEvent (.write a 4 5) State.reset).pending = .write a 4 5 :: [] ∧ a.toNat % 4 = 0 ∧
      a.toNat < windowEnd Config.params ∧ a ≠ 0x000 ∧ a ≠ 0x008 ∧ a ≠ 0x00C ∧ a ≠ 0x010 ∧
      ¬ (0x040 ≤ a.toNat ∧ a.toNat < 0x070) ∧ ¬ (0x080 ≤ a.toNat ∧ a.toNat < 0x0C0)) := by
  have h := outBase_lt_windowEnd Config.params
  have hall : ∀ a : Word, a ∈ [0x004, 0x014, 0x03C, 0x070, 0x07C, 0x0C0, 0xFFC, 0x1000] →
      a.toNat % 4 = 0 ∧ a.toNat ≤ outBase ∧ a ≠ 0x000 ∧ a ≠ 0x008 ∧ a ≠ 0x00C ∧ a ≠ 0x010 ∧
      ¬ (0x040 ≤ a.toNat ∧ a.toNat < 0x070) ∧ ¬ (0x080 ≤ a.toNat ∧ a.toNat < 0x0C0) := by
    intro a ha
    simp only [List.mem_cons, List.not_mem_nil, or_false] at ha
    rcases ha with rfl | rfl | rfl | rfl | rfl | rfl | rfl | rfl <;> decide
  exact fun a ha => ⟨rfl, rfl, (hall a ha).1, Nat.lt_of_le_of_lt (hall a ha).2.1 h, (hall a ha).2.2⟩

theorem witness_ForbiddenAccessesAreRefused_step :
    ((withEvent (.write 0x008 2 5) State.reset).pending = .read 0x008 2 :: [] ∨
      (withEvent (.write 0x008 2 5) State.reset).pending = .write 0x008 2 5 :: []) ∧
    accessRefusal Config.params (withEvent (.write 0x008 2 5) State.reset) (0x008 : Word).toNat 2 = some .accessWidth :=
  ⟨.inr rfl, rfl⟩

theorem witness_ForbiddenAccessesAreRefused_busy :
    ({ State.reset with status := { Status.reset with busy := true } } : State).status.busy = true := rfl

theorem witness_ForbiddenAccessesAreRefused_clauses :
    State.reset.status.busy = false ∧ (8 ≠ 4) ∧ (0x002 % 4 ≠ 0) ∧ (0x14B0 % 4 = 0) ∧ windowEnd stubP ≤ 0x14B0 := by decide

theorem witness_WindowLayout : 4 * 7 < Buf.akey.size ∧ 4 * 3 < Buf.aiv.size ∧ 4 * 15 < Buf.bmat.size ∧ 4 * 15 < Buf.roll.size ∧
    4 * 7 < Buf.bkey.size ∧ 4 * 2 < Buf.bnonce.size := by decide

theorem witness_BusyNeverReadsOne :
    (withEvent (.read 0x004 4) State.reset).pending = .read 0x004 4 :: [] ∧
    step (withEvent (.read 0x004 4) State.reset) = .next { State.reset with reads := [0] } := ⟨rfl, rfl⟩

theorem witness_BufferWordViewIsLittleEndian : 3 < 4 ∧ 7 < 8 ∧ 15 < 16 ∧ 2 < 3 := by decide

theorem witness_OutWordViewIsLittleEndian : 3 < 4 := by decide

/-- A state whose host writes a whole buffer. -/
def writingBuffer (b : Buf) (bytes : List Byte) : State := { State.reset with pending := (Line.wrbuf b bytes).expand ++ [] }

theorem witness_WrbufWritesTheWholeBuffer :
    (writingBuffer .akey (Vector.replicate 32 7).toList).status.busy = false ∧
    (writingBuffer .akey (Vector.replicate 32 7).toList).pending = (Line.wrbuf .akey (Vector.replicate 32 7).toList).expand ++ [] ∧
    (writingBuffer .aiv (Vector.replicate 16 7).toList).pending = (Line.wrbuf .aiv (Vector.replicate 16 7).toList).expand ++ [] ∧
    (writingBuffer .bmat (Vector.replicate 64 7).toList).pending = (Line.wrbuf .bmat (Vector.replicate 64 7).toList).expand ++ [] :=
  ⟨rfl, rfl, rfl, rfl⟩

theorem witness_DeriveLoadsTheCipherSeed : (ready 0 [false, false]).NoFailure Config.params 2 :=
  noFailure_of_draws 2 _ (by decide)

theorem witness_DeriveFallsBackOnCipherFailure :
    (ready 0 [true]).failsAt Config.params 0 = true ∧ (ready 0 [false, true]).failsAt Config.params 0 = false ∧
    (ready 0 [false, true]).failsAt Config.params 1 = true := ⟨rfl, rfl, rfl⟩

theorem witness_AdvanceDrawsOneWord : (readyFor 1 1).status.aSeeded = true ∧ (readyFor 1 1).upperLimit ≠ 0 := by decide

theorem witness_SequenceErrorWithoutState : State.reset.status.aSeeded = false ∧ State.reset.status.bReady = false := ⟨rfl, rfl⟩

theorem witness_InvalidArgumentOnBadOperands :
    (readyFor 1 0).status.aSeeded = true ∧ (readyFor 1 0).upperLimit = 0 ∧ (readyFor 0 1).count = 0 ∧
    Config.params.outCapacity < (readyFor 0xFFFFFFFF 1).count.toNat := ⟨rfl, rfl, rfl, capacity_lt⟩

theorem witness_GenerateBoundedFillsOut :
    (ready 0 []).count ≠ 0 ∧ (ready 0 []).count.toNat ≤ Config.params.outCapacity ∧ (ready 0 []).upperLimit ≠ 0 ∧
    (((ready 0 []).derivedSeed Config.params).1, ((ready 0 []).derivedSeed Config.params).2) =
      (ready 0 []).derivedSeed Config.params := ⟨by decide, one_le_capacity, by decide, rfl⟩

/-- A legal `A_GENERATE` completes. -/
theorem generateBounded_completes : ∃ t, exec .aGenerate (ready 0 [true]) = .next t ∧ t.status.err = false ∧ t.status.aSeeded = true := by
  refine ⟨_, exec_eq .aGenerate _, ?_⟩
  rcases aGenerate_cases Config.params (ready 0 [true]) with ⟨h, -⟩ | ⟨-, -, -, m, -, -, h⟩
  · exfalso
    rcases h with h | h | h
    · exact absurd h (by decide)
    · exact absurd h (by decide)
    · exact absurd one_le_capacity (by simpa [ready] using h)
  · rw [commandState, h]
    exact ⟨rfl, rfl⟩

theorem witness_ModeAOutputsBelowTheBound_advance :
    (ready 0 []).status.aSeeded = true ∧ (ready 0 []).upperLimit ≠ 0 ∧ ∃ t, exec .aAdvance (ready 0 []) = .next t :=
  ⟨rfl, by decide, _, exec_eq ..⟩

theorem witness_ModeAOutputsBelowTheBound_generate :
    ∃ t, exec .aGenerate (ready 0 [true]) = .next t ∧ t.status.err = false ∧ 0 < (ready 0 [true]).count.toNat := by
  obtain ⟨t, h, he, -⟩ := generateBounded_completes
  exact ⟨t, h, he, by decide⟩

theorem witness_BoundOneDrawsZeros_advance :
    (readyFor 1 1).upperLimit = 1 ∧ (readyFor 1 1).status.aSeeded = true ∧ ∃ t, exec .aAdvance (readyFor 1 1) = .next t :=
  ⟨rfl, rfl, _, exec_eq ..⟩

theorem witness_BoundOneDrawsZeros_generate :
    (readyFor 1 1).upperLimit = 1 ∧ 0 < (readyFor 1 1).count.toNat ∧
    ∃ t, exec .aGenerate (readyFor 1 1) = .next t ∧ t.status.err = false := by
  refine ⟨rfl, by decide, _, exec_eq .aGenerate _, ?_⟩
  rcases aGenerate_cases Config.params (readyFor 1 1) with ⟨h, -⟩ | ⟨-, -, -, m, -, -, h⟩
  · exfalso
    rcases h with h | h | h
    · exact absurd h (by decide)
    · exact absurd h (by decide)
    · exact absurd one_le_capacity (by simpa [readyFor] using h)
  · rw [commandState, h]
    rfl

theorem witness_GenerateBoundedIsDeterministic :
    (ready 0 [true]).count = (ready 64 [true]).count ∧ (ready 0 [true]).upperLimit = (ready 64 [true]).upperLimit ∧
    (ready 0 [true]).akey = (ready 64 [true]).akey ∧ (ready 0 [true]).aiv = (ready 64 [true]).aiv ∧
    (ready 0 [true]).failsAt Config.params 0 = (ready 64 [true]).failsAt Config.params 0 ∧
    (ready 0 [true]).failsAt Config.params 1 = (ready 64 [true]).failsAt Config.params 1 ∧
    ∃ t t', exec .aGenerate (ready 0 [true]) = .next t ∧ exec .aGenerate (ready 64 [true]) = .next t' ∧ t.status.err = false := by
  obtain ⟨t, h, he, -⟩ := generateBounded_completes
  exact ⟨rfl, rfl, rfl, rfl, rfl, rfl, t, _, h, exec_eq .aGenerate _, he⟩

theorem witness_AdvanceContinuesGenerate :
    ∃ t u, exec .aGenerate (ready 0 [true]) = .next t ∧ t.status.err = false ∧ exec .aAdvance t = .next u := by
  obtain ⟨t, h, he, -⟩ := generateBounded_completes
  exact ⟨t, _, h, he, exec_eq .aAdvance t⟩

theorem witness_InitStreamFromTheDigest : (ready 0 [false]).NoFailure Config.params 1 := noFailure_of_draws 1 _ (by decide)

theorem witness_InitHashFailure : (ready 0 [true]).failsAt Config.params 0 = true := rfl

theorem witness_StepAppliesTheStreamCipher :
    (ready 448 [false]).status.bReady = true ∧ ((ready 448 [false]).bBytes + 64).toNat ≤ 512 ∧
    (ready 448 [false]).NoFailure Config.params 1 := ⟨rfl, by decide, noFailure_of_draws 1 _ (by decide)⟩

theorem witness_StepReseedsAboveTheThreshold :
    (ready 512 [false, false]).status.bReady = true ∧ 512 < ((ready 512 [false, false]).bBytes + 64).toNat ∧
    (ready 512 [false, false]).NoFailure Config.params 2 := ⟨rfl, by decide, noFailure_of_draws 2 _ (by decide)⟩

theorem witness_StepPrimitiveFailures_cipher :
    (ready 512 [true]).status.bReady = true ∧ (ready 512 [true]).failsAt Config.params 0 = true := ⟨rfl, rfl⟩

theorem witness_StepPrimitiveFailures_hash :
    (ready 512 [false, true]).status.bReady = true ∧ (ready 512 [false, true]).failsAt Config.params 0 = false ∧
    512 < ((ready 512 [false, true]).bBytes + 64).toNat ∧ (ready 512 [false, true]).failsAt Config.params 1 = true :=
  ⟨rfl, rfl, by decide, rfl⟩

theorem witness_GenerateStreamFillsOut :
    (ready 0 [false, false]).count ≠ 0 ∧ (ready 0 [false, false]).count.toNat ≤ Config.params.outCapacity ∧
    (ready 0 [false, false]).NoFailure Config.params (invocations (ready 0 [false, false]).count.toNat) :=
  ⟨by decide, one_le_capacity, noFailure_of_draws _ _ (by decide)⟩

theorem witness_ReseedCadence :
    (ready 0 [false, false]).count ≠ 0 ∧ (ready 0 [false, false]).count.toNat ≤ Config.params.outCapacity ∧
    (ready 0 [false, false]).NoFailure Config.params (invocations (ready 0 [false, false]).count.toNat) ∧
    ∃ t, exec .bGenerate (ready 0 [false, false]) = .next t :=
  ⟨by decide, one_le_capacity, noFailure_of_draws _ _ (by decide), _, exec_eq ..⟩

theorem witness_GenerateStreamPrimitiveFailure_hash :
    (ready 0 [true]).count ≠ 0 ∧ (ready 0 [true]).count.toNat ≤ Config.params.outCapacity ∧
    0 < invocations (ready 0 [true]).count.toNat ∧ (ready 0 [true]).NoFailure Config.params 0 ∧
    (ready 0 [true]).failsAt Config.params 0 = true :=
  ⟨by decide, one_le_capacity, by decide, noFailure_of_draws 0 _ (by decide), rfl⟩

theorem witness_GenerateStreamPrimitiveFailure_cipher :
    (ready 0 [false, true]).count ≠ 0 ∧ (ready 0 [false, true]).count.toNat ≤ Config.params.outCapacity ∧
    1 < invocations (ready 0 [false, true]).count.toNat ∧ (ready 0 [false, true]).NoFailure Config.params 1 ∧
    (ready 0 [false, true]).failsAt Config.params 1 = true :=
  ⟨by decide, one_le_capacity, by decide, noFailure_of_draws 1 _ (by decide), rfl⟩

/-- A `B_GENERATE` of one word without failures completes. -/
theorem generateStream_completes (s : State) (hc : s.count = 1) (h : s.primDraws = [false, false]) :
    ∃ t, exec .bGenerate s = .next t ∧ t.status.err = false := by
  refine ⟨_, exec_eq .bGenerate _, ?_⟩
  have h0 : s.failsAt Config.params 0 = false := by simp [State.failsAt, h]
  have hf : (((s.beginCommand.setOutCount 0).afterDraws 1).withStream (Stream.init Config.params s.bmat)).setReady true |>.NoFailure
      Config.params 1 :=
    noFailure_of_draws 1 _ fun k hk => by
      obtain rfl : k = 0 := by omega
      simp [h]
  obtain ⟨m, he, -, -⟩ := generateLoop_done Config.params (n := 1) 1 0 _ (by decide) (by decide) rfl hf
  have hn : s.count.toNat = 1 := by rw [hc]; rfl
  have hcap : ¬ (s.count = 0 ∨ Config.params.outCapacity < s.count.toNat) := by
    have := outCapacity_pos Config.params
    rw [hn, hc]
    simp
    omega
  rw [commandState, bGenerate, if_neg hcap, initStream_eq, State.failsAt_setOutCount, State.failsAt_beginCommand, h0,
    if_neg (by simp), Progress.andThen_done, hn]
  have he' : generateLoop Config.params 1 1 0 ((((s.beginCommand.setOutCount 0).afterDraws 1).withStream
      (Stream.init Config.params (s.beginCommand.setOutCount 0).bmat)).setReady true) = _ := he
  rw [he']
  rfl

theorem witness_GenerateStreamIsDeterministic :
    (ready 0 [false, false]).count = (ready 64 [false, false]).count ∧ (ready 0 [false, false]).bmat = (ready 64 [false, false]).bmat ∧
    ∃ t t', exec .bGenerate (ready 0 [false, false]) = .next t ∧ exec .bGenerate (ready 64 [false, false]) = .next t' ∧
      t.status.err = false ∧ t'.status.err = false := by
  obtain ⟨t, h, he⟩ := generateStream_completes (ready 0 [false, false]) rfl rfl
  obtain ⟨t', h', he'⟩ := generateStream_completes (ready 64 [false, false]) rfl rfl
  exact ⟨rfl, rfl, t, t', h, h', he, he'⟩

theorem witness_OutputBlocksAreChained :
    ∃ t, exec .bGenerate (ready 0 [false, false]) = .next t ∧ t.status.err = false :=
  generateStream_completes (ready 0 [false, false]) rfl rfl

theorem witness_FailedStreamIsNotStepped_hash :
    ∃ t, exec .bInit (ready 0 [true]) = .next t ∧ t.status.errcode = .hashFailure := ⟨_, rfl, rfl⟩

theorem witness_FailedStreamIsNotStepped_cipher :
    ∃ t, exec .bStep (ready 0 [true]) = .next t ∧ t.status.errcode = .cipherFailure := ⟨_, rfl, rfl⟩

/-- Every command answers a next state in every state: the hypothesis `exec i s = .next t` of the statements about all commands. -/
theorem witness_exec_next (i : Instr) : ∃ t, exec i (ready 0 [false, false]) = .next t := ⟨_, exec_eq i _⟩

theorem witness_OnlyGenerateWritesOut_clauses :
    Instr.bStep ≠ .aGenerate ∧ Instr.bStep ≠ .bGenerate ∧ Instr.bStep ≠ .aAdvance ∧ 0x0FFF < 0x1000 ∧
    0x1000 + 4 * (ready 0 []).count.toNat ≤ 0x1004 := by decide

/-- Two states that differ in the other mode's state only, for either mode. -/
theorem witness_ModesAreDisjoint :
    isModeA .aDerive = true ∧ isModeA .bGenerate = false ∧
    (ready 0 []).shared = (ready 64 []).shared ∧ (ready 0 []).modeA = (ready 64 []).modeA ∧
    (ready 0 []).shared = ({ ready 0 [] with seedIn := 7 } : State).shared ∧
    (ready 0 []).modeB = ({ ready 0 [] with seedIn := 7 } : State).modeB ∧
    (ready 0 []).modeB ≠ (ready 64 []).modeB := ⟨rfl, rfl, rfl, rfl, rfl, rfl, by decide⟩

/-- The state after reset meets the invariant, and so does a state with every enable set. -/
theorem witness_StepKeepsInvariant :
    Inv Config.params (withEvent (.write 0 4 0x12) (ready 512 [true])) ∧
    ∃ t, step (withEvent (.write 0 4 0x12) (ready 512 [true])) = .next t :=
  ⟨⟨rfl, by decide, by decide, by decide, by decide, fun _ => ⟨0, rfl⟩, Nat.zero_le _, List.Pairwise.nil, (fun c hc => by cases hc),
    by decide⟩, _, rfl⟩

theorem witness_OnlyResetClearsStickyAndSeeded :
    ∃ s t : State, step s = .next t ∧ (∀ rest, s.pending ≠ .reset :: rest) ∧ s.status.errSticky = true ∧ s.status.aSeeded = true :=
  ⟨{ ready 0 [] with status := { Status.reset with errSticky := true, aSeeded := true } }, _, rfl, fun _ h => (nomatch h), rfl, rfl⟩

theorem witness_SourceResultIsReadFromStatus_ok :
    ∃ t, exec .aGenerate (ready 0 [true]) = .next t ∧ t.status.err = false := by
  obtain ⟨t, h, he, -⟩ := generateBounded_completes
  exact ⟨t, h, he⟩

theorem witness_SourceResultIsReadFromStatus_errors :
    (∃ t, exec .aGenerate (readyFor 0 1) = .next t ∧ t.status.errcode.bits = 3) ∧
    (∃ t, exec .bGenerate (ready 0 [true]) = .next t ∧ (t.status.errcode.bits = 4 ∨ t.status.errcode.bits = 5)) := by
  refine ⟨⟨_, rfl, rfl⟩, _, exec_eq .bGenerate _, ?_⟩
  rw [commandState]
  rcases bGenerate_cases Config.params (ready 0 [true]) with ⟨h, -⟩ | ⟨-, -, c, h⟩ | ⟨-, -, u, -, h0, -, -⟩
  · rcases h with h | h
    · exact absurd h (by decide)
    · exact absurd one_le_capacity (Nat.not_le.2 h)
  · rw [h.status_eq]
    rcases h.code with rfl | rfl
    · exact .inl rfl
    · exact .inr rfl
  · exact absurd h0 (by decide)

end Sys2Proof.Tests
end

/-! PROOFS of the statements about the state: reset, `STATUS`, the two modes' isolation, and the invariant of every step. -/

/-! ### Frames: what every command keeps -/

namespace Sys2Proof.Machine

/-- All that the seven commands and an illegal word have in common: `t` is `s` but for `STATUS`, the results, `LCG_STATE`, the stream
registers, `OUT[0..n)` and the draws; `BUSY` is kept, `ERR` and `ERRCODE` agree (R116), and `ERR_STICKY` collects the error (R26). -/
structure CommandFrame (P : Params) (n : Nat) (s t : State) : Prop where
  eq : t = { s.withStream t.stream with
    status := t.status, seedOut := t.seedOut, result := t.result, outCount := t.outCount, lcgState := t.lcgState
    out := t.out, primDraws := t.primDraws, draws := t.draws }
  busy : t.status.busy = s.status.busy
  errSticky : t.status.errSticky = (s.status.errSticky || t.status.err)
  err_iff : t.status.err = true ↔ t.status.errcode ≠ .none
  out : WritesOut P 0 n s.out t.out
  draws_le : s.draws ≤ t.draws

theorem CommandFrame.mono {P : Params} {n n' : Nat} {s t : State} (h : CommandFrame P n s t) (hn : n ≤ n') :
    CommandFrame P n' s t :=
  ⟨h.eq, h.busy, h.errSticky, h.err_iff, h.out.mono le_rfl hn, h.draws_le⟩

/-- A command that clears `OUT_COUNT` first is within the frame of its start. -/
theorem CommandFrame.of_setOutCount {P : Params} {n : Nat} {v : Word} {s t : State}
    (h : CommandFrame P n (s.setOutCount v) t) : CommandFrame P n s t :=
  ⟨h.eq, h.busy, h.errSticky, h.err_iff, h.out, h.draws_le⟩

/-- A check that ends a command with an error changes `STATUS` alone (R124, R125). -/
theorem raise_frame (P : Params) (n : Nat) (s : State) {c : ErrorCode} (hc : c ≠ .none) :
    CommandFrame P n s (s.beginCommand.raise c) :=
  ⟨rfl, rfl, by simp, by simpa using hc, .refl .., le_rfl⟩

/-- A primitive failure is within the frame of a command (R126, R127). -/
theorem FailedFrame.commandFrame {P : Params} {n : Nat} {c : ErrorCode} {s t : State} (h : FailedFrame P n c s t) :
    CommandFrame P n s t := by
  have hc : c ≠ .none := by rcases h.code with rfl | rfl <;> decide
  refine ⟨?_, ?_, ?_, ?_, h.out, h.draws_le⟩
  · rw [h.eq]
    rfl
  · rw [h.status_eq]
    rfl
  · simp [h.status_eq]
  · simpa [h.status_eq] using hc

theorem aLoadSeed_frame (P : Params) (s : State) : CommandFrame P 0 s (aLoadSeed s) :=
  ⟨rfl, rfl, by simp [aLoadSeed], by simp [aLoadSeed], .refl .., le_rfl⟩

theorem aDerive_frame (P : Params) (s : State) : CommandFrame P 0 s (aDerive P s) := by
  rw [aDerive_eq]
  exact ⟨rfl, rfl, by simp, by simp, .refl .., by simp⟩

theorem aAdvance_frame (P : Params) (s : State) : CommandFrame P 0 s (aAdvance s) := by
  rcases aAdvance_cases s with ⟨-, he⟩ | ⟨-, -, he⟩ | ⟨-, -, he⟩ <;> rw [he]
  · exact raise_frame P 0 s (by decide)
  · exact raise_frame P 0 s (by decide)
  · exact ⟨rfl, rfl, by simp, by simp, .refl .., le_rfl⟩

theorem aGenerate_frame (P : Params) (s : State) :
    CommandFrame P (min s.count.toNat P.outCapacity) s (aGenerate P s) := by
  rcases aGenerate_cases P s with ⟨-, he⟩ | ⟨-, -, hcap, m, hw, -, he⟩ <;> rw [he]
  · exact (raise_frame P _ (s.setOutCount 0) (by decide)).of_setOutCount
  · rw [min_eq_left hcap]
    exact ⟨rfl, rfl, by simp, by simp, hw, by simp⟩

theorem bInit_frame (P : Params) (s : State) : CommandFrame P 0 s (bInit P s) := by
  rcases bInit_cases P s with ⟨-, h⟩ | ⟨-, he⟩
  · exact h.commandFrame
  · rw [he]
    exact ⟨rfl, rfl, by simp, by simp, .refl .., by simp⟩

theorem bStep_frame (P : Params) (s : State) : CommandFrame P 0 s (bStep P s) := by
  rcases bStep_cases P s with ⟨-, he⟩ | ⟨-, c, h, -⟩ | ⟨-, -, -, he⟩ | ⟨-, -, -, -, he⟩
  · rw [he]
    exact raise_frame P 0 s (by decide)
  · exact h.commandFrame
  · rw [he]
    exact ⟨rfl, rfl, by simp, by simp, .refl .., by simp⟩
  · rw [he]
    exact ⟨rfl, rfl, by simp, by simp, .refl .., by simp⟩

theorem StreamFrame.status_eq {P : Params} {lo hi : Nat} {s t : State} (h : StreamFrame P lo hi s t) :
    t.status = s.status := by rw [h.eq]; rfl

theorem bGenerate_frame (P : Params) (s : State) :
    CommandFrame P (min s.count.toNat P.outCapacity) s (bGenerate P s) := by
  rcases bGenerate_cases P s with ⟨-, he⟩ | ⟨-, hcap, c, h⟩ | ⟨-, hcap, u, h, -, -, he⟩
  · rw [he]
    exact (raise_frame P _ (s.setOutCount 0) (by decide)).of_setOutCount
  · rw [min_eq_left hcap]
    exact h.commandFrame.of_setOutCount
  · rw [he, min_eq_left hcap]
    refine ⟨?_, ?_, ?_, ?_, h.out, Nat.le_of_succ_le h.draws_le⟩
    · rw [h.eq]
      rfl
    · simp [h.status_eq]
    · simp [h.status_eq]
    · simp [h.status_eq]

/-- The words of `OUT` a command may write: those below `COUNT`, and none for a command that does not generate (R65). -/
def wordsWritten (P : Params) (s : State) : Instr → Nat
  | .aGenerate | .bGenerate => min s.count.toNat P.outCapacity
  | .aLoadSeed | .aDerive | .aAdvance | .bInit | .bStep => 0

theorem wordsWritten_le_count (P : Params) (s : State) (i : Instr) : wordsWritten P s i ≤ s.count.toNat := by
  cases i <;> simp [wordsWritten]

theorem wordsWritten_le_capacity (P : Params) (s : State) (i : Instr) : wordsWritten P s i ≤ P.outCapacity := by
  cases i <;> simp [wordsWritten]

theorem wordsWritten_of_not_generate (P : Params) (s : State) {i : Instr} (ha : i ≠ .aGenerate) (hb : i ≠ .bGenerate) :
    wordsWritten P s i = 0 := by
  cases i with
  | aGenerate | bGenerate => contradiction
  | aLoadSeed | aDerive | aAdvance | bInit | bStep => rfl

theorem commandState_frame (P : Params) (i : Instr) (s : State) :
    CommandFrame P (wordsWritten P s i) s (commandState P i s) := by
  cases i with
  | aLoadSeed => exact aLoadSeed_frame P s
  | aDerive => exact aDerive_frame P s
  | aAdvance => exact aAdvance_frame P s
  | aGenerate => exact aGenerate_frame P s
  | bInit => exact bInit_frame P s
  | bStep => exact bStep_frame P s
  | bGenerate => exact bGenerate_frame P s

end Sys2Proof.Machine

/-! ### The other mode's state is not written (R51) -/

namespace Sys2Proof.Machine

theorem aDerive_modeB (P : Params) (s : State) : (aDerive P s).modeB = s.modeB := by
  rw [aDerive_eq]
  rfl

theorem aAdvance_modeB (s : State) : (aAdvance s).modeB = s.modeB := by
  rcases aAdvance_cases s with ⟨-, he⟩ | ⟨-, -, he⟩ | ⟨-, -, he⟩ <;> rw [he] <;> rfl

theorem aGenerate_modeB (P : Params) (s : State) : (aGenerate P s).modeB = s.modeB := by
  rcases aGenerate_cases P s with ⟨-, he⟩ | ⟨-, -, -, m, -, -, he⟩ <;> rw [he] <;> rfl

/-- No Mode A command writes the Mode B state (R51). -/
theorem commandState_modeB (P : Params) {i : Instr} (h : isModeA i = true) (s : State) :
    (commandState P i s).modeB = s.modeB := by
  cases i with
  | aLoadSeed => rfl
  | aDerive => exact aDerive_modeB P s
  | aAdvance => exact aAdvance_modeB s
  | aGenerate => exact aGenerate_modeB P s
  | bInit | bStep | bGenerate => exact absurd h (by decide)

theorem FailedFrame.modeA {P : Params} {n : Nat} {c : ErrorCode} {s t : State} (h : FailedFrame P n c s t) :
    t.modeA = s.modeA := by rw [h.eq]; rfl

theorem StreamFrame.modeA {P : Params} {lo hi : Nat} {s t : State} (h : StreamFrame P lo hi s t) :
    t.modeA = s.modeA := by rw [h.eq]; rfl

theorem bInit_modeA (P : Params) (s : State) : (bInit P s).modeA = s.modeA := by
  rcases bInit_cases P s with ⟨-, h⟩ | ⟨-, he⟩
  · exact h.modeA
  · rw [he]; rfl

theorem bStep_modeA (P : Params) (s : State) : (bStep P s).modeA = s.modeA := by
  rcases bStep_cases P s with ⟨-, he⟩ | ⟨-, c, h, -⟩ | ⟨-, -, -, he⟩ | ⟨-, -, -, -, he⟩
  · rw [he]; rfl
  · exact h.modeA
  · rw [he]; rfl
  · rw [he]; rfl

theorem bGenerate_modeA (P : Params) (s : State) : (bGenerate P s).modeA = s.modeA := by
  rcases bGenerate_cases P s with ⟨-, he⟩ | ⟨-, -, c, h⟩ | ⟨-, -, u, h, -, -, he⟩
  · rw [he]; rfl
  · exact h.modeA
  · rw [he]; exact h.modeA

/-- No Mode B command writes the Mode A state (R51). -/
theorem commandState_modeA (P : Params) {i : Instr} (h : isModeA i = false) (s : State) :
    (commandState P i s).modeA = s.modeA := by
  cases i with
  | bInit => exact bInit_modeA P s
  | bStep => exact bStep_modeA P s
  | bGenerate => exact bGenerate_modeA P s
  | aLoadSeed | aDerive | aAdvance | aGenerate => exact absurd h (by decide)

end Sys2Proof.Machine

/-! ### The results: `OUT_COUNT` and `RESULT` (R35, R36) -/

namespace Sys2Proof.Machine

/-- The two ends of a generate command: an error and `OUT_COUNT = 0`, or no error and `OUT_COUNT = COUNT`, within `OUT` (R36). -/
def GenerateEnd (P : Params) (s t : State) : Prop :=
  (t.status.err = true ∧ t.outCount = 0) ∨
    (t.status.err = false ∧ t.outCount = s.count ∧ s.count.toNat ≤ P.outCapacity)

theorem GenerateEnd.outCount_eq {P : Params} {s t : State} (h : GenerateEnd P s t) :
    t.outCount = if t.status.err then 0 else s.count := by
  rcases h with ⟨he, hc⟩ | ⟨he, hc, -⟩ <;> simp [he, hc]

theorem GenerateEnd.outCount_le {P : Params} {s t : State} (h : GenerateEnd P s t) : t.outCount.toNat ≤ P.outCapacity := by
  rcases h with ⟨-, hc⟩ | ⟨-, hc, hcap⟩
  · simp [hc]
  · rwa [hc]

theorem aGenerate_end (P : Params) (s : State) : GenerateEnd P s (aGenerate P s) := by
  rcases aGenerate_cases P s with ⟨-, he⟩ | ⟨-, -, hcap, m, -, -, he⟩ <;> rw [he]
  · exact .inl ⟨rfl, rfl⟩
  · exact .inr ⟨rfl, rfl, hcap⟩

theorem FailedFrame.outCount {P : Params} {n : Nat} {c : ErrorCode} {s t : State} (h : FailedFrame P n c s t) :
    t.outCount = s.outCount := by rw [h.eq]; rfl

theorem bGenerate_end (P : Params) (s : State) : GenerateEnd P s (bGenerate P s) := by
  rcases bGenerate_cases P s with ⟨-, he⟩ | ⟨-, -, c, h⟩ | ⟨-, hcap, u, h, -, -, he⟩
  · rw [he]
    exact .inl ⟨rfl, rfl⟩
  · exact .inl ⟨by simp [h.status_eq], h.outCount⟩
  · rw [he]
    exact .inr ⟨by simp [h.status_eq], rfl, hcap⟩

theorem commandState_generateEnd (P : Params) (s : State) {i : Instr} (h : i = .aGenerate ∨ i = .bGenerate) :
    GenerateEnd P s (commandState P i s) := by
  rcases h with rfl | rfl
  · exact aGenerate_end P s
  · exact bGenerate_end P s

theorem aDerive_outCount (P : Params) (s : State) : (aDerive P s).outCount = s.outCount := by
  rw [aDerive_eq]
  rfl

theorem aAdvance_outCount (s : State) : (aAdvance s).outCount = s.outCount := by
  rcases aAdvance_cases s with ⟨-, he⟩ | ⟨-, -, he⟩ | ⟨-, -, he⟩ <;> rw [he] <;> rfl

theorem bInit_outCount (P : Params) (s : State) : (bInit P s).outCount = s.outCount := by
  rcases bInit_cases P s with ⟨-, h⟩ | ⟨-, he⟩
  · exact h.outCount
  · rw [he]; rfl

theorem bStep_outCount (P : Params) (s : State) : (bStep P s).outCount = s.outCount := by
  rcases bStep_cases P s with ⟨-, he⟩ | ⟨-, c, h, -⟩ | ⟨-, -, -, he⟩ | ⟨-, -, -, -, he⟩
  · rw [he]; rfl
  · exact h.outCount
  · rw [he]; rfl
  · rw [he]; rfl

/-- Only the generate commands write `OUT_COUNT` (R36). -/
theorem commandState_outCount (P : Params) (s : State) {i : Instr} (ha : i ≠ .aGenerate) (hb : i ≠ .bGenerate) :
    (commandState P i s).outCount = s.outCount := by
  cases i with
  | aLoadSeed => rfl
  | aDerive => exact aDerive_outCount P s
  | aAdvance => exact aAdvance_outCount s
  | bInit => exact bInit_outCount P s
  | bStep => exact bStep_outCount P s
  | aGenerate | bGenerate => contradiction

/-- Only `A_ADVANCE` writes `RESULT` (R35). -/
theorem commandState_result (P : Params) (s : State) {i : Instr} (h : i ≠ .aAdvance) :
    (commandState P i s).result = s.result := by
  cases i with
  | aLoadSeed => rfl
  | aDerive =>
    rw [commandState, aDerive_eq]
    rfl
  | aAdvance => contradiction
  | aGenerate =>
    rw [commandState]
    rcases aGenerate_cases P s with ⟨-, he⟩ | ⟨-, -, -, m, -, -, he⟩ <;> rw [he] <;> rfl
  | bInit => exact congrArg ModeAState.result (bInit_modeA P s)
  | bStep => exact congrArg ModeAState.result (bStep_modeA P s)
  | bGenerate => exact congrArg ModeAState.result (bGenerate_modeA P s)

end Sys2Proof.Machine

/-! ### The flags (R52) -/

namespace Sys2Proof.Machine

theorem aAdvance_errcode (s : State) :
    (aAdvance s).status.errcode = .none ∨ (aAdvance s).status.errcode = .sequenceError ∨
      (aAdvance s).status.errcode = .invalidArgument := by
  rcases aAdvance_cases s with ⟨-, he⟩ | ⟨-, -, he⟩ | ⟨-, -, he⟩ <;> rw [he]
  · exact .inr (.inl rfl)
  · exact .inr (.inr rfl)
  · exact .inl rfl

theorem aAdvance_flags (s : State) :
    (aAdvance s).status.fallback = s.status.fallback ∧ (aAdvance s).status.aSeeded = s.status.aSeeded := by
  rcases aAdvance_cases s with ⟨-, he⟩ | ⟨-, -, he⟩ | ⟨-, -, he⟩ <;> rw [he] <;> exact ⟨rfl, rfl⟩

theorem aGenerate_flags (P : Params) (s : State) :
    ((aGenerate P s).status.errcode = .none ∧ (aGenerate P s).status.aSeeded = true) ∨
      ((aGenerate P s).status.errcode = .invalidArgument ∧ (aGenerate P s).status.fallback = s.status.fallback ∧
        (aGenerate P s).status.aSeeded = s.status.aSeeded) := by
  rcases aGenerate_cases P s with ⟨-, he⟩ | ⟨-, -, -, m, -, -, he⟩ <;> rw [he]
  · exact .inr ⟨rfl, rfl, rfl⟩
  · exact .inl ⟨rfl, rfl⟩

theorem FailedFrame.errcode_and_bReady {P : Params} {n : Nat} {c : ErrorCode} {s t : State} (h : FailedFrame P n c s t) :
    t.status.errcode = c ∧ t.status.bReady = false := by
  rw [h.status_eq]
  exact ⟨rfl, rfl⟩

/-- A primitive failure as R52 states it: one of the two codes, and `B_READY` cleared. -/
theorem FailedFrame.primitive_errcode {P : Params} {n : Nat} {c : ErrorCode} {s t : State} (h : FailedFrame P n c s t) :
    (t.status.errcode = .hashFailure ∨ t.status.errcode = .cipherFailure) ∧ t.status.bReady = false := by
  obtain ⟨hc, hr⟩ := h.errcode_and_bReady
  rw [hc]
  exact ⟨h.code, hr⟩

theorem bInit_flags (P : Params) (s : State) :
    ((bInit P s).status.errcode = .none ∧ (bInit P s).status.bReady = true) ∨
      ((bInit P s).status.errcode = .hashFailure ∧ (bInit P s).status.bReady = false) := by
  rcases bInit_cases P s with ⟨-, h⟩ | ⟨-, he⟩
  · exact .inr h.errcode_and_bReady
  · rw [he]
    exact .inl ⟨rfl, rfl⟩

theorem bStep_flags (P : Params) (s : State) :
    ((bStep P s).status.errcode = .none ∧ (bStep P s).status.bReady = true) ∨
      ((bStep P s).status.errcode = .sequenceError ∧ (bStep P s).status.bReady = s.status.bReady) ∨
      (((bStep P s).status.errcode = .hashFailure ∨ (bStep P s).status.errcode = .cipherFailure) ∧
        (bStep P s).status.bReady = false) := by
  rcases bStep_cases P s with ⟨-, he⟩ | ⟨-, c, h, -⟩ | ⟨-, -, -, he⟩ | ⟨-, -, -, -, he⟩
  · rw [he]
    exact .inr (.inl ⟨rfl, rfl⟩)
  · exact .inr (.inr h.primitive_errcode)
  · rw [he]
    exact .inl ⟨rfl, rfl⟩
  · rw [he]
    exact .inl ⟨rfl, rfl⟩

theorem bGenerate_flags (P : Params) (s : State) :
    ((bGenerate P s).status.errcode = .none ∧ (bGenerate P s).status.bReady = true) ∨
      ((bGenerate P s).status.errcode = .invalidArgument ∧ (bGenerate P s).status.bReady = s.status.bReady) ∨
      (((bGenerate P s).status.errcode = .hashFailure ∨ (bGenerate P s).status.errcode = .cipherFailure) ∧
        (bGenerate P s).status.bReady = false) := by
  rcases bGenerate_cases P s with ⟨-, he⟩ | ⟨-, -, c, h⟩ | ⟨-, -, u, h, -, -, he⟩
  · rw [he]
    exact .inr (.inl ⟨rfl, rfl⟩)
  · exact .inr (.inr h.primitive_errcode)
  · rw [he]
    exact .inl (by simp [h.status_eq])

/-- A Mode B command leaves the flags of Mode A alone (R52). -/
theorem commandState_modeA_flags (P : Params) {i : Instr} (h : isModeA i = false) (s : State) :
    (commandState P i s).status.fallback = s.status.fallback ∧ (commandState P i s).status.aSeeded = s.status.aSeeded :=
  ⟨congrArg ModeAState.fallback (commandState_modeA P h s), congrArg ModeAState.aSeeded (commandState_modeA P h s)⟩

/-- A Mode A command leaves `B_READY` alone (R52). -/
theorem commandState_bReady (P : Params) {i : Instr} (h : isModeA i = true) (s : State) :
    (commandState P i s).status.bReady = s.status.bReady :=
  congrArg ModeBState.bReady (commandState_modeB P h s)

/-- No command clears `A_SEEDED` (R28). -/
theorem commandState_aSeeded (P : Params) (i : Instr) (s : State) (h : s.status.aSeeded = true) :
    (commandState P i s).status.aSeeded = true := by
  cases i with
  | aLoadSeed => rfl
  | aDerive =>
    rw [commandState, aDerive_eq]
    rfl
  | aAdvance => exact (aAdvance_flags s).2.trans h
  | aGenerate =>
    rcases aGenerate_flags P s with ⟨-, hs⟩ | ⟨-, -, hs⟩
    · exact hs
    · exact hs.trans h
  | bInit => exact (commandState_modeA_flags P (i := .bInit) rfl s).2.trans h
  | bStep => exact (commandState_modeA_flags P (i := .bStep) rfl s).2.trans h
  | bGenerate => exact (commandState_modeA_flags P (i := .bGenerate) rfl s).2.trans h

end Sys2Proof.Machine

/-! ### The other mode's state is not read (R51) -/

namespace Sys2Proof.Machine

/-- Equal shared and Mode A states: the states differ in the Mode B state and in the host's fields alone. -/
theorem eq_withModeBOf {s s' : State} (hs : s.shared = s'.shared) (ha : s.modeA = s'.modeA) : s' = s.withModeBOf s' := by
  obtain ⟨st, _⟩ := s
  obtain ⟨st', _⟩ := s'
  obtain ⟨_, _⟩ := st
  obtain ⟨_, _⟩ := st'
  simp_all [State.shared, State.modeA, State.withModeBOf, Status.withReady]

/-- Equal shared and Mode B states: the states differ in the Mode A state and in the host's fields alone. -/
theorem eq_withModeAOf {s s' : State} (hs : s.shared = s'.shared) (hb : s.modeB = s'.modeB) : s' = s.withModeAOf s' := by
  obtain ⟨st, _⟩ := s
  obtain ⟨st', _⟩ := s'
  obtain ⟨_, _⟩ := st
  obtain ⟨_, _⟩ := st'
  simp_all [State.shared, State.modeB, State.withModeAOf]

theorem aDerive_withModeBOf (P : Params) (o s : State) : aDerive P (s.withModeBOf o) = (aDerive P s).withModeBOf o := by
  rw [aDerive_eq, aDerive_eq]
  rfl

theorem aAdvance_withModeBOf (o s : State) : aAdvance (s.withModeBOf o) = (aAdvance s).withModeBOf o := by
  have hs : (s.withModeBOf o).status.aSeeded = s.status.aSeeded := rfl
  have hu : (s.withModeBOf o).upperLimit = s.upperLimit := rfl
  have hl : (s.withModeBOf o).lcgState = s.lcgState := rfl
  rw [aAdvance, aAdvance, hs, hu, hl]
  split
  · rfl
  · split <;> rfl

theorem aGenerate_withModeBOf (P : Params) (o s : State) :
    aGenerate P (s.withModeBOf o) = (aGenerate P s).withModeBOf o := by
  have hc : (s.withModeBOf o).count = s.count := rfl
  have hu : (s.withModeBOf o).upperLimit = s.upperLimit := rfl
  rw [aGenerate, aGenerate, hc, hu]
  split
  · rfl
  · have hd := drawWords_withModeBOf o s.upperLimit s.count.toNat 0
      (zext64 (deriveSeed P (s.beginCommand.setOutCount 0)).seed) (deriveSeed P (s.beginCommand.setOutCount 0)).after
    have hseed : deriveSeed P ((s.withModeBOf o).beginCommand.setOutCount 0) =
        { deriveSeed P (s.beginCommand.setOutCount 0) with
          after := (deriveSeed P (s.beginCommand.setOutCount 0)).after.withModeBOf o } := by
      rw [deriveSeed_eq, deriveSeed_eq]
      rfl
    simp only [hseed, hd]
    rfl

/-- A Mode A command does not read the Mode B state or the host's fields (R51). -/
theorem commandState_withModeBOf (P : Params) {i : Instr} (h : isModeA i = true) (o s : State) :
    commandState P i (s.withModeBOf o) = (commandState P i s).withModeBOf o := by
  cases i with
  | aLoadSeed => rfl
  | aDerive => exact aDerive_withModeBOf P o s
  | aAdvance => exact aAdvance_withModeBOf o s
  | aGenerate => exact aGenerate_withModeBOf P o s
  | bInit | bStep | bGenerate => exact absurd h (by decide)

theorem bInit_withModeAOf (P : Params) (o s : State) : bInit P (s.withModeAOf o) = (bInit P s).withModeAOf o := by
  have h : (s.withModeAOf o).beginCommand = s.beginCommand.withModeAOf o := rfl
  rw [bInit, bInit, h, initStream_withModeAOf, Progress.finish_withModeAOf]

theorem bStep_withModeAOf (P : Params) (o s : State) : bStep P (s.withModeAOf o) = (bStep P s).withModeAOf o := by
  have h : (s.withModeAOf o).beginCommand = s.beginCommand.withModeAOf o := rfl
  have hr : (s.withModeAOf o).status.bReady = s.status.bReady := rfl
  rw [bStep, bStep, hr]
  split
  · rfl
  · rw [h, applyStream_withModeAOf, Progress.map_andThen _ _ (reseedIfDue_withModeAOf P o),
      Progress.map_andThen (State.withModeAOf · o) _ fun _ => rfl, Progress.finish_withModeAOf]

theorem bGenerate_withModeAOf (P : Params) (o s : State) :
    bGenerate P (s.withModeAOf o) = (bGenerate P s).withModeAOf o := by
  have h : (s.withModeAOf o).beginCommand.setOutCount 0 = (s.beginCommand.setOutCount 0).withModeAOf o := rfl
  have hc : (s.withModeAOf o).count = s.count := rfl
  rw [bGenerate, bGenerate, hc]
  split
  · rfl
  · rw [h, initStream_withModeAOf, Progress.map_andThen _ _ fun s1 => generateLoop_withModeAOf P _ _ _ o s1,
      Progress.map_andThen (State.withModeAOf · o) _ fun _ => rfl, Progress.finish_withModeAOf]

/-- A Mode B command does not read the Mode A state or the host's fields (R51). -/
theorem commandState_withModeAOf (P : Params) {i : Instr} (h : isModeA i = false) (o s : State) :
    commandState P i (s.withModeAOf o) = (commandState P i s).withModeAOf o := by
  cases i with
  | bInit => exact bInit_withModeAOf P o s
  | bStep => exact bStep_withModeAOf P o s
  | bGenerate => exact bGenerate_withModeAOf P o s
  | aLoadSeed | aDerive | aAdvance | aGenerate => exact absurd h (by decide)

end Sys2Proof.Machine

/-! ### The invariant -/

namespace Sys2Proof.Machine

/-- The part of the invariant on the Mode A state: a fallback seed is the seed of `SEED_OUT` (R27, R89), and a seeded `LCG_STATE`
descends from it (R34, R99). -/
def ModeAState.SeedSound (a : ModeAState) : Prop :=
  (a.fallback = true → a.aSeeded = true ∧ a.seedOut = fallbackSeed) ∧
    (a.aSeeded = true → ∃ k, a.lcgState = lcgNext^[k] (zext64 a.seedOut))

/-- The part of the invariant on the Mode B state: a valid stream has counted whole blocks, within the threshold (R39, R110). -/
def ModeBState.BytesCounted (b : ModeBState) : Prop :=
  b.bReady = true → b.bBytes.toNat ≤ reseedThreshold ∧ b.bBytes.toNat % blockBytes = 0

theorem Inv.seedSound {P : Params} {s : State} (h : Inv P s) : s.modeA.SeedSound := ⟨h.fallback_seed, h.descends⟩

theorem Inv.bytesCounted {P : Params} {s : State} (h : Inv P s) : s.modeB.BytesCounted := h.bytes_counted

/-- Within the frame of a command the invariant holds again where its parts on the two modes and on `OUT_COUNT` do. -/
theorem Inv.of_frame {P : Params} {n : Nat} {s t : State} (h : Inv P s) (hf : CommandFrame P n s t) (hn : n ≤ P.outCapacity)
    (ha : t.modeA.SeedSound) (hb : t.modeB.BytesCounted) (hc : t.outCount.toNat ≤ P.outCapacity) : Inv P t where
  busy_clear := hf.busy.trans h.busy_clear
  err_iff := hf.err_iff
  err_sticky he := by rw [hf.errSticky, he, Bool.or_true]
  fallback_seed := ha.1
  bytes_counted := hb
  descends := ha.2
  out_count_le := hc
  out_wf := hf.out.wf h.out_wf
  out_in := hf.out.inOut hn h.out_in
  out_drawn := by
    have hd : t.outDraw = s.outDraw := by rw [hf.eq]; rfl
    rw [hd]
    exact h.out_drawn.trans_le hf.draws_le

/-! #### The seed -/

/-- A command that seeds Mode A leaves a sound seed (R27, R34). -/
theorem seedSound_seeded (s : State) {sd : Word} {fb : Bool} (k : Nat) (h : fb = true → sd = fallbackSeed) :
    (s.seeded (lcgNext^[k] (zext64 sd)) sd fb).modeA.SeedSound :=
  ⟨fun hf => ⟨rfl, h hf⟩, fun _ => ⟨k, rfl⟩⟩

theorem aAdvance_seedSound {s : State} (h : s.modeA.SeedSound) : (aAdvance s).modeA.SeedSound := by
  rcases aAdvance_cases s with ⟨-, he⟩ | ⟨-, -, he⟩ | ⟨-, -, he⟩ <;> rw [he]
  · exact h
  · exact h
  · refine ⟨h.1, fun hs => ?_⟩
    obtain ⟨k, hk⟩ := h.2 hs
    exact ⟨k + 1, (congrArg lcgNext hk).trans (Function.iterate_succ_apply' lcgNext k _).symm⟩

theorem aGenerate_seedSound (P : Params) {s : State} (h : s.modeA.SeedSound) : (aGenerate P s).modeA.SeedSound := by
  rcases aGenerate_cases P s with ⟨-, he⟩ | ⟨-, -, -, m, -, -, he⟩ <;> rw [he]
  · exact h
  · exact seedSound_seeded _ _ State.derivedSeed_fallback

theorem commandState_seedSound (P : Params) (i : Instr) {s : State} (h : s.modeA.SeedSound) :
    (commandState P i s).modeA.SeedSound := by
  cases i with
  | aLoadSeed => exact seedSound_seeded s.beginCommand 0 (by simp)
  | aDerive =>
    rw [commandState, aDerive_eq]
    exact seedSound_seeded _ 0 State.derivedSeed_fallback
  | aAdvance => exact aAdvance_seedSound h
  | aGenerate => exact aGenerate_seedSound P h
  | bInit => rwa [commandState_modeA P rfl s]
  | bStep => rwa [commandState_modeA P rfl s]
  | bGenerate => rwa [commandState_modeA P rfl s]

/-! #### The byte count -/

theorem FailedFrame.bytesCounted {P : Params} {n : Nat} {c : ErrorCode} {s t : State} (h : FailedFrame P n c s t) :
    t.modeB.BytesCounted := fun hr => absurd (h.errcode_and_bReady.2.symm.trans hr) (by decide)

theorem State.CountsBlocks.bytesCounted {s : State} (h : s.CountsBlocks) : s.modeB.BytesCounted := fun _ => h

theorem bInit_bytesCounted (P : Params) (s : State) : (bInit P s).modeB.BytesCounted := by
  rcases bInit_cases P s with ⟨-, h⟩ | ⟨-, he⟩
  · exact h.bytesCounted
  · rw [he]
    exact fun _ => ⟨Nat.zero_le _, rfl⟩

/-- An application that needs no reseed counts one block more (R103, R110). -/
theorem toNat_bBytes_apply_mod {b : Word} (h : b.toNat % 64 = 0) : (b + 64).toNat % 64 = 0 := by
  rw [BitVec.toNat_add, show (64 : Word).toNat = 64 from rfl]
  omega

theorem bStep_bytesCounted (P : Params) {s : State} (h : s.modeB.BytesCounted) : (bStep P s).modeB.BytesCounted := by
  rcases bStep_cases P s with ⟨-, he⟩ | ⟨-, c, hf, -⟩ | ⟨hr, -, hle, he⟩ | ⟨-, -, -, -, he⟩
  · rw [he]
    exact h
  · exact hf.bytesCounted
  · rw [he]
    exact fun _ => ⟨Nat.le_of_not_lt hle, toNat_bBytes_apply_mod (h hr).2⟩
  · rw [he]
    exact fun _ => ⟨Nat.zero_le _, rfl⟩

theorem bGenerate_bytesCounted (P : Params) {s : State} (h : s.modeB.BytesCounted) :
    (bGenerate P s).modeB.BytesCounted := by
  rcases bGenerate_cases P s with ⟨-, he⟩ | ⟨-, -, c, hf⟩ | ⟨-, -, u, -, -, hl, he⟩
  · rw [he]
    exact h
  · exact hf.bytesCounted
  · rw [he]
    exact (generateLoop_countsBlocks P _ _ ⟨Nat.zero_le _, rfl⟩ hl).bytesCounted

theorem commandState_bytesCounted (P : Params) (i : Instr) {s : State} (h : s.modeB.BytesCounted) :
    (commandState P i s).modeB.BytesCounted := by
  cases i with
  | bInit => exact bInit_bytesCounted P s
  | bStep => exact bStep_bytesCounted P h
  | bGenerate => exact bGenerate_bytesCounted P h
  | aLoadSeed => rwa [commandState_modeB P rfl s]
  | aDerive => rwa [commandState_modeB P rfl s]
  | aAdvance => rwa [commandState_modeB P rfl s]
  | aGenerate => rwa [commandState_modeB P rfl s]

/-! #### The invariant after each kind of step -/

theorem commandState_outCount_le (P : Params) (i : Instr) {s : State} (h : s.outCount.toNat ≤ P.outCapacity) :
    (commandState P i s).outCount.toNat ≤ P.outCapacity := by
  by_cases hg : i = .aGenerate ∨ i = .bGenerate
  · exact (commandState_generateEnd P s hg).outCount_le
  · obtain ⟨ha, hb⟩ := not_or.1 hg
    rwa [commandState_outCount P s ha hb]

/-- Every command keeps the invariant. -/
theorem Inv.command {P : Params} {s : State} (h : Inv P s) (i : Instr) : Inv P (commandState P i s) :=
  h.of_frame (commandState_frame P i s) (wordsWritten_le_capacity P s i) (commandState_seedSound P i h.seedSound)
    (commandState_bytesCounted P i h.bytesCounted) (commandState_outCount_le P i h.out_count_le)

/-- An illegal word keeps the invariant (R118). -/
theorem Inv.illegalCommand {P : Params} {s : State} (h : Inv P s) : Inv P s.illegalCommand :=
  h.of_frame (raise_frame P 0 s (by decide)) (Nat.zero_le _) h.seedSound h.bytesCounted h.out_count_le

/-- The invariant does not speak of the registers and buffers the host writes, nor of the host's list and the values read. -/
theorem Inv.host_fields {P : Params} {s : State} (h : Inv P s) (c u d : Word) (k : Bytes 32) (v : Bytes 16) (b : Bytes 64)
    (l : List HostEvent) (r : List Word) :
    Inv P { s with count := c, upperLimit := u, seedIn := d, akey := k, aiv := v, bmat := b, pending := l, reads := r } :=
  ⟨h.busy_clear, h.err_iff, h.err_sticky, h.fallback_seed, h.bytes_counted, h.descends, h.out_count_le, h.out_wf, h.out_in,
    h.out_drawn⟩

theorem Inv.withPending {P : Params} {s : State} (h : Inv P s) (l : List HostEvent) : Inv P { s with pending := l } :=
  h.host_fields _ _ _ _ _ _ l _

/-- A write of the window keeps the invariant (R61). -/
theorem Inv.writeAt {P : Params} {s : State} (h : Inv P s) (a : Nat) (v : Word) : Inv P (s.writeAt a v) := by
  obtain ⟨c, u, d, k, i, b, he⟩ := State.writeAt_eq a v s
  rw [he]
  exact h.host_fields c u d k i b _ _

/-- The machine right after reset meets the invariant (R53). -/
theorem inv_reset (P : Params) : Inv P State.reset where
  busy_clear := rfl
  err_iff := by decide
  err_sticky := by decide
  fallback_seed := by decide
  bytes_counted := by decide
  descends hs := absurd hs (by decide)
  out_count_le := Nat.zero_le _
  out_wf := List.Pairwise.nil
  out_in _ hc := absurd hc List.not_mem_nil
  out_drawn := by decide

/-- A reset event meets it again, with a new draw for `OUT` (R140). -/
theorem inv_applyReset (P : Params) (s : State) : Inv P s.applyReset :=
  { inv_reset P with out_drawn := Nat.lt_succ_self s.draws }

theorem Inv.step {s t : State} (h : Inv Config.params s) (hst : step s = .next t) : Inv Config.params t := by
  rcases step_cases hst with ⟨-, rfl⟩ | ⟨e, rest, -, hev⟩
  · exact h
  rcases hev with ⟨-, rfl⟩ | ⟨a, -, -, rfl⟩ | ⟨a, v, -, -, rfl⟩ | ⟨v, i, -, -, -, rfl⟩ | ⟨v, -, -, -, rfl⟩
  · exact inv_applyReset _ _
  · exact h.host_fields _ _ _ _ _ _ _ _
  · exact (h.withPending rest).writeAt _ _
  · exact (h.withPending rest).command i
  · exact (h.withPending rest).illegalCommand

end Sys2Proof.Machine

/-! ### The word of `STATUS` and the two words of `LCG_STATE` -/

namespace Sys2Proof.Machine

/-- `STATUS` stands at `0x004` (R56). -/
theorem State.readAt_status (P : Params) (s : State) : s.readAt P 0x004 = s.status.word := rfl

/-- Bits of `STATUS`, with its width written as the sum of its fields' widths, to which the laws of concatenation apply. -/
theorem Status.extractLsb'_word (st : Status) (i len : Nat) :
    st.word.extractLsb' i len =
      BitVec.extractLsb' (n := 20 + 4 + 2 + 1 + 1 + 1 + 1 + 1 + 1) i len
        ((0 : BitVec 20) ++ st.errcode.bits ++ (0 : BitVec 2) ++ BitVec.ofBool st.bReady ++ BitVec.ofBool st.aSeeded ++
          BitVec.ofBool st.fallback ++ BitVec.ofBool st.errSticky ++ BitVec.ofBool st.err ++ BitVec.ofBool st.busy) := rfl

theorem Status.word_busy (st : Status) : st.word.extractLsb' 0 1 = BitVec.ofBool st.busy := by
  rw [Status.extractLsb'_word]
  exact BitVec.extractLsb'_append_eq_right

/-- The two halves of a 64-bit value make it up (R84). -/
theorem rd64Value_halves (l : DWord) : rd64Value (l.extractLsb' 0 32) (l.extractLsb' 32 32) = l := by
  apply BitVec.eq_of_toNat_eq
  have hl := l.isLt
  simp only [rd64Value, BitVec.toNat_ofNat, BitVec.extractLsb'_toNat, Nat.shiftRight_eq_div_pow]
  omega

end Sys2Proof.Machine

/-! ### The obligations -/

namespace Sys2Proof.Machine

/-- Settles O50: a step is idle, a reset, an access of the host, or a command or an illegal word, and each keeps the invariant. -/
theorem stepKeepsInvariant : Obligations.StepKeepsInvariant := fun _ _ h hst => h.step hst

/-- Settles O17: each field is cut out of the concatenation that makes up the word. -/
theorem statusFieldsAtTheirBits : Obligations.StatusFieldsAtTheirBits := by
  intro s
  simp only [State.readAt_status, Status.extractLsb'_word]
  refine ⟨?busy, ?err, ?errSticky, ?fallback, ?aSeeded, ?bReady, ?reserved6, ?reserved12, ?errcode⟩
  all_goals
    simp (disch := decide) only [BitVec.extractLsb'_append_eq_of_le, BitVec.extractLsb'_append_eq_of_add_le,
      BitVec.extractLsb'_eq_self, Nat.reduceSub]
  case errcode => cases s.status.errcode <;> rfl

/-- Settles O18: a read is made only where `BUSY = 0`, and bit 0 of the word is `BUSY`. -/
theorem busyNeverReadsOne : Obligations.BusyNeverReadsOne := by
  intro s t rest hp hst
  have hread : s.status.busy = false ∧
      t = { s with pending := rest, reads := s.reads ++ [s.readAt Config.params 0x004] } := by
    rcases step_cases hst with ⟨h, -⟩ | ⟨e, rest', h, hev⟩ <;> rw [hp] at h
    · cases h
    · injection h with he hr
      subst he hr
      rcases hev with ⟨h, -⟩ | ⟨a, h, hb, ht⟩ | ⟨_, _, h, -⟩ | ⟨_, _, h, -⟩ | ⟨_, h, -⟩ <;> cases h
      exact ⟨hb, ht⟩
  obtain ⟨hb, rfl⟩ := hread
  refine ⟨_, rfl, ?_⟩
  rw [State.readAt_status, Status.word_busy, hb]
  rfl

/-- Settles O21: the words at `0x020` and `0x024` are the two halves of `LCG_STATE`. -/
theorem lcgStateReadsAsTwoWords : Obligations.LcgStateReadsAsTwoWords := fun s => rd64Value_halves s.lcgState

/-- Settles O46, a row of R52 for each command. -/
theorem flagsWrittenByEachCommand : Obligations.FlagsWrittenByEachCommand := by
  intro i s t h
  obtain rfl := exec_next_iff.1 h
  refine ⟨(commandState_frame Config.params i s).errSticky, ?_⟩
  cases i with
  | aLoadSeed => exact ⟨rfl, rfl, rfl, rfl⟩
  | aDerive =>
    simp only [commandState, aDerive_eq]
    exact ⟨rfl, rfl, rfl⟩
  | aAdvance =>
    obtain ⟨hf, hs⟩ := aAdvance_flags s
    exact ⟨aAdvance_errcode s, hf, hs, commandState_bReady _ rfl s⟩
  | aGenerate => exact ⟨aGenerate_flags _ s, commandState_bReady _ rfl s⟩
  | bInit => exact ⟨bInit_flags _ s, commandState_modeA_flags _ rfl s⟩
  | bStep => exact ⟨bStep_flags _ s, commandState_modeA_flags _ rfl s⟩
  | bGenerate => exact ⟨bGenerate_flags _ s, commandState_modeA_flags _ rfl s⟩

/-- Settles O47: the input registers and the host's fields are outside the frame of every command. -/
theorem commandsKeepTheInputRegisters : Obligations.CommandsKeepTheInputRegisters := by
  intro i s t h
  obtain rfl := exec_next_iff.1 h
  have hf := commandState_frame Config.params i s
  have hbusy := hf.busy
  rw [hf.eq]
  exact ⟨rfl, rfl, rfl, rfl, rfl, rfl, hbusy, rfl, rfl, rfl⟩

/-- Settles O48: a command writes `OUT` only in the words `wordsWritten` counts. -/
theorem onlyGenerateWritesOut : Obligations.OnlyGenerateWritesOut := by
  intro i s t h
  obtain rfl := exec_next_iff.1 h
  refine ⟨fun a ha => ?_, commandState_outCount _ s, fun hg => (commandState_generateEnd _ s hg).outCount_eq,
    commandState_result _ s⟩
  have hf := commandState_frame Config.params i s
  have hle := wordsWritten_le_count Config.params s i
  refine State.outByte_congr (hf.out.kept a ?_) (by rw [hf.eq]; rfl)
  simp only [outAddr, outBase]
  rcases ha with ⟨h1, h2⟩ | ha | ha
  · rw [wordsWritten_of_not_generate _ s h1 h2]
    omega
  · omega
  · omega

/-- Settles O49: the frame of each mode's commands, and that they commute with a change of the other mode's state. -/
theorem modesAreDisjoint : Obligations.ModesAreDisjoint := by
  refine ⟨fun i s t h => ?_, fun i s s' t t' hshared h h' => ?_⟩
  · obtain rfl := exec_next_iff.1 h
    exact ⟨fun hi => commandState_modeB _ hi s, fun hi => commandState_modeA _ hi s⟩
  · obtain rfl := exec_next_iff.1 h
    obtain rfl := exec_next_iff.1 h'
    refine ⟨fun hi ha => ?_, fun hi hb => ?_⟩
    · rw [eq_withModeBOf hshared ha, commandState_withModeBOf _ hi]
      exact ⟨rfl, rfl⟩
    · rw [eq_withModeAOf hshared hb, commandState_withModeAOf _ hi]
      exact ⟨rfl, rfl⟩

/-- Settles O51: beside reset, a step keeps the flags or runs a command, which keeps both set. -/
theorem onlyResetClearsStickyAndSeeded : Obligations.OnlyResetClearsStickyAndSeeded := by
  intro s t hst hnr
  rcases step_cases hst with ⟨-, rfl⟩ | ⟨e, rest, hp, hev⟩
  · exact ⟨id, id⟩
  rcases hev with ⟨rfl, -⟩ | ⟨a, -, -, rfl⟩ | ⟨a, v, -, -, rfl⟩ | ⟨v, i, -, -, -, rfl⟩ | ⟨v, -, -, -, rfl⟩
  · exact absurd hp (hnr rest)
  · exact ⟨id, id⟩
  · obtain ⟨c, u, d, k, i, b, he⟩ := State.writeAt_eq a.toNat v { s with pending := rest }
    rw [he]
    exact ⟨id, id⟩
  · refine ⟨fun hs => ?_, commandState_aSeeded _ i { s with pending := rest }⟩
    rw [(commandState_frame Config.params i { s with pending := rest }).errSticky, hs, Bool.true_or]
  · exact ⟨fun _ => rfl, id⟩

/-- Settles O1, register by register; an `OUT` with no byte listed reads as the free bytes of its draw. -/
theorem resetValuesOfEveryRegister : Obligations.ResetValuesOfEveryRegister := by
  refine ⟨fun r => ?_, rfl, rfl, rfl, rfl, rfl, rfl, rfl, fun _ => rfl⟩
  cases r <;> rfl

/-- Settles O2: every flag is clear, `OUT` lists no byte, and draw 0 is before draw 1. -/
theorem resetMeetsInvariant : Obligations.ResetMeetsInvariant := inv_reset _

/-- Settles O4: both commands end at their first check. -/
theorem resetIsUnseededAndUninitialised : Obligations.ResetIsUnseededAndUninitialised := ⟨rfl, rfl, rfl⟩

end Sys2Proof.Machine

/-! PROOFS of the statements about the host window: its map, the accesses a step performs or refuses, and `wrbuf`. -/

/-! ### What stands at an offset, and what a write there changes (R56, R59, R60) -/

namespace Sys2Proof.Machine

theorem locate_regOffset (r : Reg) : locate r.offset = .reg r := by cases r <;> rfl

/-- A register stands at its own offset only (R56). -/
theorem offset_of_locate_eq_reg {a : Nat} {r : Reg} (h : locate a = .reg r) : a = r.offset := by
  unfold locate at h
  repeat' split at h
  all_goals cases h
  all_goals rfl

/-- A word of a buffer stands inside its buffer only (R56, R63). -/
theorem range_of_locate_eq_bufWord {a i : Nat} {b : Buf} (h : locate a = .bufWord b i) :
    b.base ≤ a ∧ a < b.base + b.size := by
  unfold locate Buf.wordAtOffset at h
  repeat' split at h
  all_goals cases h
  all_goals simp only [Buf.base, Buf.size]; omega

/-- A write beside the RW registers and buffers is ignored (R59, R60). -/
theorem State.writeAt_eq_self {a : Nat} (v : Word) (s : State) (hcount : a ≠ 0x008) (hlimit : a ≠ 0x00C) (hseed : a ≠ 0x010)
    (hkey : ¬ (0x040 ≤ a ∧ a < 0x070)) (hmat : ¬ (0x080 ≤ a ∧ a < 0x0C0)) : s.writeAt a v = s := by
  unfold State.writeAt
  split
  case h_1 hl => exact absurd (offset_of_locate_eq_reg hl) hcount
  case h_2 hl => exact absurd (offset_of_locate_eq_reg hl) hlimit
  case h_3 hl => exact absurd (offset_of_locate_eq_reg hl) hseed
  case h_4 hl | h_5 hl | h_6 hl =>
    have hrange := range_of_locate_eq_bufWord hl
    simp only [Buf.base, Buf.size] at hrange
    omega
  all_goals rfl

theorem State.writeAt_akey {i : Nat} (hi : 4 * i < Buf.akey.size) (v : Word) (s : State) :
    s.writeAt (Buf.akey.base + 4 * i) v = { s with akey := setWordAt s.akey i v } := by
  rw [State.writeAt, locate_bufWord .akey hi]

theorem State.writeAt_aiv {i : Nat} (hi : 4 * i < Buf.aiv.size) (v : Word) (s : State) :
    s.writeAt (Buf.aiv.base + 4 * i) v = { s with aiv := setWordAt s.aiv i v } := by
  rw [State.writeAt, locate_bufWord .aiv hi]

theorem State.writeAt_bmat {i : Nat} (hi : 4 * i < Buf.bmat.size) (v : Word) (s : State) :
    s.writeAt (Buf.bmat.base + 4 * i) v = { s with bmat := setWordAt s.bmat i v } := by
  rw [State.writeAt, locate_bufWord .bmat hi]

theorem State.readAt_bufWord (P : Params) (s : State) (b : Buf) {i : Nat} (h : 4 * i < b.size) :
    s.readAt P (b.base + 4 * i) = s.readBuf b i := by
  rw [State.readAt, locate_bufWord b h]

/-- Byte `j` of word `i` of the buffer whose bytes are `x` (R62, R63). -/
theorem State.byteAt_leBytes32_readAt_bufWord (P : Params) (s : State) {n : Nat} (b : Buf) (x : Bytes n) {i j : Nat}
    (hx : s.readBuf b i = wordAt x i) (hi : 4 * i < b.size) (hj : j < 4) :
    byteAt (leBytes32 (s.readAt P (b.base + 4 * i))) j = byteAt x (4 * i + j) := by
  rw [State.readAt_bufWord P s b hi, hx, byteAt_leBytes32_wordAt x i hj]

theorem State.readAt_out (P : Params) (s : State) (i : Nat) : s.readAt P (outAddr i) = s.outWord P i := by
  rw [State.readAt, locate_out]

theorem byteAt_leBytes32_outWord (P : Params) (s : State) (i : Nat) {j : Nat} (h : j < 4) :
    byteAt (leBytes32 (s.outWord P i)) j = s.outByte P (outAddr i + j) := by
  rw [State.outWord, leBytes32_le32, byteAt_ofFn _ h]

theorem State.readAt_reserved (P : Params) (s : State) {a : Nat} (h : locate a = .reserved) : s.readAt P a = 0 := by
  rw [State.readAt, h]

end Sys2Proof.Machine

/-! ### Which accesses stop a step, and what the others do (R57, R58, R79, R146) -/

namespace Sys2Proof.Machine

theorem perform_read_of_refused {s : State} {a : Word} {width : Nat} {r : Refusal}
    (h : accessRefusal Config.params s a.toNat width = some r) : perform (.read a width) s = .refused r := by
  simp only [perform, h]

theorem perform_write_of_refused {s : State} {a v : Word} {width : Nat} {r : Refusal}
    (h : accessRefusal Config.params s a.toNat width = some r) : perform (.write a width v) s = .refused r := by
  simp only [perform, h]

theorem perform_read_of_allowed {s : State} {a : Word} {width : Nat}
    (h : accessRefusal Config.params s a.toNat width = none) :
    perform (.read a width) s = .next (s.recordRead (s.readAt Config.params a.toNat)) := by
  simp only [perform, h]

theorem perform_write_of_allowed {s : State} {a v : Word} {width : Nat}
    (h : accessRefusal Config.params s a.toNat width = none) :
    perform (.write a width v) s = performWrite a.toNat v s := by
  simp only [perform, h]

theorem step_cons {s : State} {e : HostEvent} {rest : List HostEvent} (hp : s.pending = e :: rest) :
    step s = perform e { s with pending := rest } := by
  rw [step, hp]

/-- A decoded command completes, an illegal word is recorded, and the window takes or ignores the value: no write stops (R68, R116). -/
theorem performWrite_completes (a : Nat) (v : Word) (s : State) : ∃ t, performWrite a v s = .next t := by
  unfold performWrite issueCommand
  split
  · split
    · exact ⟨_, exec_eq _ s⟩
    · exact ⟨_, rfl⟩
  · exact ⟨_, rfl⟩

/-- The host's duties (R146) are what the machine checks. -/
theorem accessRefusal_eq_none_iff_wf {P : Params} {s : State} {a : Word} {width : Nat} :
    accessRefusal P s a.toNat width = none ↔ s.status.busy = false ∧ (HostEvent.read a width).wf P = true := by
  refine ⟨fun h => ?_, fun ⟨hb, hw⟩ => (read_wf_iff hb).1 hw⟩
  obtain ⟨hb, -⟩ := accessRefusal_eq_none.1 h
  exact ⟨hb, (read_wf_iff hb).2 h⟩

/-- The duties of a write are those of a read at the same place. -/
theorem write_wf_eq (P : Params) (a v : Word) (width : Nat) :
    (HostEvent.write a width v).wf P = (HostEvent.read a width).wf P := rfl

theorem perform_completes_iff (e : HostEvent) (s : State) :
    (∃ t, perform e s = .next t) ↔ e = .reset ∨ (s.status.busy = false ∧ e.wf Config.params = true) := by
  cases e with
  | reset => exact ⟨fun _ => .inl rfl, fun _ => ⟨_, rfl⟩⟩
  | read a width =>
    rw [← accessRefusal_eq_none_iff_wf]
    cases hr : accessRefusal Config.params s a.toNat width with
    | none => simp [perform_read_of_allowed hr]
    | some r => simp [perform_read_of_refused hr]
  | write a width v =>
    rw [write_wf_eq, ← accessRefusal_eq_none_iff_wf]
    cases hr : accessRefusal Config.params s a.toNat width with
    | none => simp [perform_write_of_allowed hr, performWrite_completes]
    | some r => simp [perform_write_of_refused hr]

/-- A step whose next access is a write of the window below `OUT` and beside `CMD` (R57, R61). -/
theorem step_writeAt {s : State} {rest : List HostEvent} {a v : Word} (hp : s.pending = .write a 4 v :: rest)
    (hb : s.status.busy = false) {n : Nat} (ha : a.toNat = n) (h4 : n % 4 = 0) (hl : n < outBase) (h0 : n ≠ 0) :
    step s = .next (({ s with pending := rest } : State).writeAt n v) := by
  subst ha
  rw [step_write hp hb h4 (hl.trans (outBase_lt_windowEnd _)), performWrite_of_ne_zero _ _ h0]

/-- A step whose next access is a write of a word of a buffer (R61, R63). -/
theorem step_writeBuf {s : State} {rest : List HostEvent} {a v : Word} (hp : s.pending = .write a 4 v :: rest)
    (hb : s.status.busy = false) {b : Buf} {i : Nat} (hi : 4 * i < b.size) (ha : a.toNat = b.base + 4 * i) :
    step s = .next (({ s with pending := rest } : State).writeAt (b.base + 4 * i) v) := by
  obtain ⟨hend, hpos, hal⟩ := b.size_le
  exact step_writeAt hp hb ha (by omega) (by simp only [outBase]; omega) (by omega)

/-- A step whose next access is a write of `CMD` issues the word (R79). -/
theorem step_writeCmd {s : State} {rest : List HostEvent} {w : Word} (hp : s.pending = .write 0 4 w :: rest)
    (hb : s.status.busy = false) : step s = issueCommand w { s with pending := rest } :=
  step_write hp hb rfl (Nat.zero_lt_of_lt (outBase_lt_windowEnd _))

theorem issueCommand_of_decodeWord {w : Word} {i : Instr} (h : decodeWord w = .ok i) (s : State) :
    issueCommand w s = exec i s := by
  rw [issueCommand, h]

theorem decodeWord_encode (i : Instr) : decodeWord (encode i) = .ok i := by cases i <;> rfl

/-- The word that stands for the load of a command is the command's word. -/
theorem commandEvent_toNat (w : Word) : commandEvent 32 w.toNat = .write 0 4 w := by
  rw [commandEvent, Nat.mod_eq_of_lt w.isLt, BitVec.ofNat_toNat, BitVec.setWidth_eq]

end Sys2Proof.Machine

/-! ### The obligations of the host window -/

namespace Sys2Proof.Machine

/-- Settles O11: a step that reads, and that no offset's value depends on the host's lists. -/
theorem hostReadChangesNothing : Obligations.HostReadChangesNothing := by
  intro s rest a hb hp h4 hl
  exact ⟨_, step_read hp hb h4 hl, rfl, State.readAt_congr _ s _ _⟩

/-- Settles O12: a register takes the word, a buffer the word's four bytes. -/
theorem hostWriteStoresTheValue : Obligations.HostWriteStoresTheValue := by
  intro s rest a v hb hp
  refine ⟨?count, ?upperLimit, ?seedIn, fun i hi ha => ?akey, fun i hi ha => ?aiv, fun i hi ha => ?bmat⟩
  case count | upperLimit | seedIn =>
    rintro rfl
    exact step_writeAt hp hb rfl (by decide) (by decide) (by decide)
  case akey =>
    have hsize : 4 * i < Buf.akey.size := show 4 * i < 32 by omega
    refine ⟨setWordAt s.akey i v, ?_, fun k hk => byteAt_setWordAt _ _ _ hk⟩
    rw [step_writeBuf hp hb hsize ha, State.writeAt_akey hsize]
  case aiv =>
    have hsize : 4 * i < Buf.aiv.size := show 4 * i < 16 by omega
    refine ⟨setWordAt s.aiv i v, ?_, fun k hk => byteAt_setWordAt _ _ _ hk⟩
    rw [step_writeBuf hp hb hsize ha, State.writeAt_aiv hsize]
  case bmat =>
    have hsize : 4 * i < Buf.bmat.size := show 4 * i < 64 by omega
    refine ⟨setWordAt s.bmat i v, ?_, fun k hk => byteAt_setWordAt _ _ _ hk⟩
    rw [step_writeBuf hp hb hsize ha, State.writeAt_bmat hsize]

/-- Settles O13: these offsets are reserved or `CMD`, and a write that is not of an RW register or buffer changes nothing. -/
theorem reservedAndReadOnlyOffsets : Obligations.ReservedAndReadOnlyOffsets := by
  refine ⟨fun s a _ ha => ?_, fun s rest a v hb hp h4 hl h0 hcount hlimit hseed hkey hmat => ?_⟩
  · rcases ha with rfl | rfl | ha
    · rfl
    · rfl
    · exact State.readAt_reserved _ s (locate_reserved ha)
  · have hne {w : Word} (hw : a ≠ w) : a.toNat ≠ w.toNat := fun h => hw (BitVec.eq_of_toNat_eq h)
    rw [step_write hp hb h4 hl, performWrite_of_ne_zero _ _ (hne h0),
      State.writeAt_eq_self _ _ (hne hcount) (hne hlimit) (hne hseed) hkey hmat]

/-- Settles O14: the refusal stops the access, and each broken duty gives its own refusal. -/
theorem forbiddenAccessesAreRefused : Obligations.ForbiddenAccessesAreRefused := by
  refine ⟨fun s rest a width v r hp hr => ?_, fun P s a width => ⟨fun hb => ?_, fun hb hw => ?_, fun hb hw h4 => ?_,
    fun hb hw h4 hl => ?_⟩⟩
  · rcases hp with hp | hp <;> rw [step_cons hp]
    · exact perform_read_of_refused hr
    · exact perform_write_of_refused hr
  · simp [accessRefusal, hb]
  · simp [accessRefusal, hb, hw]
  · simp [accessRefusal, hb, hw, h4]
  · have ho := (outBase_lt_windowEnd P).le.trans hl
    simp [accessRefusal, hb, hw, h4, hl.not_gt, ho.not_gt]

/-- Settles O15: without an event the step is idle, and an event completes exactly where it keeps the host's duties. -/
theorem onlyForbiddenAccessesStop : Obligations.OnlyForbiddenAccessesStop := by
  intro s
  cases hp : s.pending with
  | nil => simp [step, hp]
  | cons e rest =>
    rw [step_cons hp, perform_completes_iff]
    simp

/-- Settles O19: a word of a buffer is the little-endian word of its four bytes. -/
theorem bufferWordViewIsLittleEndian : Obligations.BufferWordViewIsLittleEndian := by
  intro s i j hj
  have hview {n : Nat} (b : Buf) (x : Bytes n) (hx : s.readBuf b i = wordAt x i) (hi : 4 * i < b.size) :=
    State.byteAt_leBytes32_readAt_bufWord Config.params s b x hx hi hj
  exact ⟨fun hi => hview .akey s.akey rfl (show 4 * i < 32 by omega), fun hi => hview .aiv s.aiv rfl (show 4 * i < 16 by omega),
    fun hi => hview .bmat s.bmat rfl (show 4 * i < 64 by omega), fun hi => hview .roll s.roll rfl (show 4 * i < 64 by omega),
    fun hi => hview .bkey s.bkey rfl (show 4 * i < 32 by omega),
    fun hi => hview .bnonce s.bnonce rfl (show 4 * i < 12 by omega)⟩

/-- Settles O20: an output word is the little-endian word of its four bytes. -/
theorem outWordViewIsLittleEndian : Obligations.OutWordViewIsLittleEndian := by
  intro s i j hj
  rw [show 0x1000 + 4 * i = outAddr i from rfl, State.readAt_out, byteAt_leBytes32_outWord _ _ _ hj]

/-- Settles O22: the run writes the buffer word by word, and the words make up the byte string. -/
theorem wrbufWritesTheWholeBuffer : Obligations.WrbufWritesTheWholeBuffer := by
  intro s rest hb
  refine ⟨fun b hp => ?akey, fun b hp => ?aiv, fun b hp => ?bmat⟩
  case akey =>
    rw [run_wrbuf .akey 8 0 b.toList s rest hb (by simp) (by decide) hp,
      State.writeWords_akey 8 0 _ _ (by simp) (by decide), setWords_toList _ _ (by decide)]
  case aiv =>
    rw [run_wrbuf .aiv 4 0 b.toList s rest hb (by simp) (by decide) hp,
      State.writeWords_aiv 4 0 _ _ (by simp) (by decide), setWords_toList _ _ (by decide)]
  case bmat =>
    rw [run_wrbuf .bmat 16 0 b.toList s rest hb (by simp) (by decide) hp,
      State.writeWords_bmat 16 0 _ _ (by simp) (by decide), setWords_toList _ _ (by decide)]

/-- Settles O8: the write reaches `CMD`, and the decoded word is dispatched. -/
theorem stepRunsDecodedCommand : Obligations.StepRunsDecodedCommand := by
  have hrun (s : State) (rest : List HostEvent) (w : Word) (i : Instr) (hb : s.status.busy = false)
      (hp : s.pending = .write 0 4 w :: rest) (hd : decodeWord w = .ok i) : step s = exec i { s with pending := rest } := by
    rw [step_writeCmd hp hb, issueCommand_of_decodeWord hd]
  refine ⟨hrun, fun s i hb => hrun _ s.pending (encode i) i hb ?_ (decodeWord_encode i)⟩
  rw [State.withFetchWord, commandEvent_toNat]

/-- Settles O16: the map of R56, register by register and buffer by buffer. -/
theorem windowLayout : Obligations.WindowLayout :=
  ⟨fun _ => ⟨rfl, rfl, rfl, rfl, rfl, rfl, rfl, rfl, rfl, rfl, rfl, rfl, rfl, rfl, rfl⟩, locate_regOffset,
    fun b _ h => locate_bufWord b h, locate_out⟩

end Sys2Proof.Machine

/-! ### The decoder and the encoder of the command word (R75, R76, R78, R79, R80) -/

namespace Sys2Proof.Machine

/-- The numbers of the words of R78: `0x01` to `0x04` in Mode A and `0x11` to `0x13` in Mode B. -/
def IsAssigned (n : Nat) : Prop := (0x01 ≤ n ∧ n ≤ 0x04) ∨ (0x11 ≤ n ∧ n ≤ 0x13)

/-- The number of the field of `len` bits from bit `lo` (R76). -/
theorem toNat_field (w : Word) (lo len : Nat) : (w.extractLsb' lo len).toNat = w.toNat / 2 ^ lo % 2 ^ len := by
  rw [BitVec.extractLsb'_toNat, Nat.shiftRight_eq_div_pow]

theorem field_eq_zero_iff (w : Word) (lo len : Nat) : w.extractLsb' lo len = 0 ↔ w.toNat / 2 ^ lo % 2 ^ len = 0 := by
  rw [← toNat_field, ← BitVec.toNat_inj]
  rfl

/-- Field `RSV` is clear exactly in the words that are their own opcode byte. -/
theorem rsv_eq_zero_iff (w : Word) : w.extractLsb' 8 24 = 0 ↔ w.toNat < 256 := by
  rw [field_eq_zero_iff]
  omega

theorem toNat_opc (w : Word) : (w.extractLsb' 0 8).toNat = w.toNat % 256 := by
  rw [toNat_field]
  omega

theorem decodeOpcode_isOk_iff (n : Nat) : (∃ i, decodeOpcode n = .ok i) ↔ IsAssigned n := by
  unfold decodeOpcode IsAssigned
  split
  case h_8 => grind -- `n` is none of the seven numbers
  all_goals simp

theorem toNat_encode_of_decodeOpcode {n : Nat} {i : Instr} (h : decodeOpcode n = .ok i) : (encode i).toNat = n := by
  unfold decodeOpcode at h
  split at h <;> cases h <;> rfl

/-- A word with `RSV` clear decodes by its number; any other does not decode (R79). -/
theorem decodeWord_eq_ok {w : Word} {i : Instr} :
    decodeWord w = .ok i ↔ w.toNat < 256 ∧ decodeOpcode w.toNat = .ok i := by
  rw [decodeWord, toNat_opc]
  by_cases h : w.toNat < 256
  · rw [if_neg (not_not.2 ((rsv_eq_zero_iff w).2 h)), Nat.mod_eq_of_lt h]
    simp [h]
  · rw [if_pos (mt (rsv_eq_zero_iff w).1 h)]
    simp [h]

theorem decodeWord_eq_ok_iff_eq_encode (w : Word) (i : Instr) : decodeWord w = .ok i ↔ w = encode i := by
  constructor
  · intro h
    obtain ⟨-, hopc⟩ := decodeWord_eq_ok.1 h
    exact BitVec.eq_of_toNat_eq (toNat_encode_of_decodeOpcode hopc).symm
  · rintro rfl
    exact decodeWord_encode i

theorem decodeWord_isOk_iff (w : Word) : (∃ i, decodeWord w = .ok i) ↔ IsAssigned w.toNat := by
  simp only [decodeWord_eq_ok, exists_and_left, decodeOpcode_isOk_iff, IsAssigned]
  omega

theorem decodeWord_isError_iff (w : Word) : (∃ e, decodeWord w = .error e) ↔ ¬ IsAssigned w.toNat := by
  rw [← decodeWord_isOk_iff]
  cases decodeWord w <;> simp

/-- The checks of the fields of R76 leave exactly the words of R78. -/
theorem commandWord_wf_iff (w : Word) : CommandWord.wf w = true ↔ IsAssigned w.toNat := by
  simp only [CommandWord.wf, CommandWord.rsvClear, CommandWord.opxClear, CommandWord.funcAssigned, Bool.and_eq_true,
    beq_iff_eq, field_eq_zero_iff, toNat_field, IsAssigned]
  split <;> simp only [Bool.and_eq_true, decide_eq_true_eq] <;> omega

theorem decode_cons (b0 b1 b2 b3 : Byte) (rest : List Byte) :
    decode (b0 :: b1 :: b2 :: b3 :: rest) = (decodeWord (le32 #v[b0, b1, b2, b3])).map fun i => (i, rest) := by
  rw [decode]
  cases decodeWord (le32 #v[b0, b1, b2, b3]) <;> rfl

/-- The first four bytes of a byte string decode as their little-endian word, and the bytes after them are left (R62, R75). -/
theorem decode_toList_append (b : Bytes 4) (rest : List Byte) :
    decode (b.toList ++ rest) = (decodeWord (le32 b)).map fun i => (i, rest) := by
  have hb : b = #v[b[0], b[1], b[2], b[3]] := by
    ext i hi
    interval_cases i <;> rfl
  rw [hb]
  exact decode_cons b[0] b[1] b[2] b[3] rest

theorem decode_encodeBytes_append (i : Instr) (rest : List Byte) : decode (encodeBytes i ++ rest) = .ok (i, rest) := by
  rw [encodeBytes, decode_toList_append, le32_leBytes32, decodeWord_encode]
  rfl

/-- Settles O6: a decoded number is the number of its command's word, and both field checks leave exactly the words of R78. -/
theorem decodeInvertsEncode : Obligations.DecodeInvertsEncode :=
  ⟨decodeWord_eq_ok_iff_eq_encode, decode_encodeBytes_append, fun w => (decodeWord_isOk_iff w).trans (commandWord_wf_iff w).symm⟩

/-- Settles O7: the words R80 lists are those that are not of R78. -/
theorem illegalWordsAreRefused : Obligations.IllegalWordsAreRefused := by
  intro w
  rw [decodeWord_isError_iff, ne_eq, rsv_eq_zero_iff, toNat_opc, IsAssigned]
  omega

/-- Settles O5: the seven words are those of `encode`; each of E-1 to E-7 fails its check by evaluation. -/
theorem commandWordsDecodeAsAssigned : Obligations.CommandWordsDecodeAsAssigned :=
  ⟨decodeWord_encode .aLoadSeed, decodeWord_encode .aDerive, decodeWord_encode .aAdvance, decodeWord_encode .aGenerate,
    decodeWord_encode .bInit, decodeWord_encode .bStep, decodeWord_encode .bGenerate,
    rfl, rfl, rfl, rfl, rfl, rfl, rfl⟩

end Sys2Proof.Machine

/-! PROOFS of the statements about Mode A: the seed it loads or derives, and the words it draws. -/

/-! ### The two commands that draw words, where their checks pass (R92, R93) -/

namespace Sys2Proof.Machine

theorem aAdvance_of_seeded {s : State} (hs : s.status.aSeeded = true) (hu : s.upperLimit ≠ 0) :
    aAdvance s =
      { s.beginCommand with lcgState := lcgNext s.lcgState, result := extract (lcgNext s.lcgState) s.upperLimit } := by
  rcases aAdvance_cases s with ⟨h, -⟩ | ⟨-, h, -⟩ | ⟨-, -, he⟩
  · rw [hs] at h
    cases h
  · exact absurd h hu
  · exact he

/-- The operands `A_GENERATE` accepts (R93, R120). -/
structure State.LegalDraws (P : Params) (s : State) : Prop where
  count_ne : s.count ≠ 0
  limit_ne : s.upperLimit ≠ 0
  count_le : s.count.toNat ≤ P.outCapacity

/-- `t` is `s` after an `A_GENERATE` that completed (R93, R99). -/
structure BoundedRun (P : Params) (s t : State) : Prop where
  eq : t = { s with
    status := s.status.begun.seeded (s.derivedSeed P).2
    lcgState := lcgNext^[s.count.toNat] (zext64 (s.derivedSeed P).1)
    seedOut := (s.derivedSeed P).1, outCount := s.count, out := t.out, primDraws := t.primDraws, draws := t.draws }
  outWord : ∀ i, i < s.count.toNat →
    t.outWord P i = extract (lcgNext^[i + 1] (zext64 (s.derivedSeed P).1)) s.upperLimit
  out : WritesOut P 0 s.count.toNat s.out t.out

/-- The two ends of `A_GENERATE`: an error where its operands are not legal, else a completed run (R93, R120). -/
theorem aGenerate_ends (P : Params) (s : State) :
    (¬ s.LegalDraws P ∧ (aGenerate P s).status.err = true) ∨
      (s.LegalDraws P ∧ (aGenerate P s).status.err = false ∧ BoundedRun P s (aGenerate P s)) := by
  rcases aGenerate_cases P s with ⟨hbad, he⟩ | ⟨hc, hu, hcap, m, hw, hv, he⟩ <;> rw [he]
  · refine .inl ⟨fun ⟨hc, hu, hcap⟩ => ?_, rfl⟩
    rcases hbad with h | h | h
    · exact hc h
    · exact hu h
    · omega
  · exact .inr ⟨⟨hc, hu, hcap⟩, rfl, rfl, fun i hi => (State.outWord_congr' rfl rfl i).trans (hv i hi), hw⟩

theorem aGenerate_err_eq_false_iff (P : Params) (s : State) :
    (aGenerate P s).status.err = false ↔ s.LegalDraws P := by
  rcases aGenerate_ends P s with ⟨hl, he⟩ | ⟨hl, he, -⟩ <;> simp [hl, he]

theorem State.LegalDraws.boundedRun {P : Params} {s : State} (h : s.LegalDraws P) : BoundedRun P s (aGenerate P s) := by
  rcases aGenerate_ends P s with ⟨hn, -⟩ | ⟨-, -, hr⟩
  · exact absurd h hn
  · exact hr

/-- A completed run leaves its seed in `SEED_OUT` and the state it reached in `LCG_STATE`, and keeps the bound (R93). -/
theorem BoundedRun.registers {P : Params} {s t : State} (h : BoundedRun P s t) :
    t.seedOut = (s.derivedSeed P).1 ∧ t.status.fallback = (s.derivedSeed P).2 ∧ t.status.aSeeded = true ∧
      t.upperLimit = s.upperLimit ∧ t.lcgState = lcgNext^[s.count.toNat] (zext64 t.seedOut) := by
  rw [h.eq]
  exact ⟨rfl, rfl, rfl, rfl, rfl⟩

end Sys2Proof.Machine

/-! ### The obligations -/

namespace Sys2Proof.Machine

/-- Settles O27: a run with legal operands is a `BoundedRun`, whose writes lie in `OUT[0..COUNT)`. -/
theorem generateBoundedFillsOut : Obligations.GenerateBoundedFillsOut := by
  intro s seed fb hc hcap hu hseed
  obtain ⟨heq, hword, hout⟩ := State.LegalDraws.boundedRun ⟨hc, hu, hcap⟩
  simp only [← hseed, zext64_eq] at heq hword
  refine ⟨_, exec_eq .aGenerate s, heq, hword, fun a ha => ?_⟩
  refine State.outByte_congr (hout.kept a ha) ?_
  rw [commandState, heq]

/-- Settles O28: both commands extract with a bound of at least 1. -/
theorem modeAOutputsBelowTheBound : Obligations.ModeAOutputsBelowTheBound := by
  refine ⟨fun s t hs hu h => ?_, fun s t h herr i hi => ?_⟩ <;> obtain rfl := exec_next_iff.1 h
  · rw [commandState, aAdvance_of_seeded hs hu]
    exact extract_lt _ hu
  · have hl := (aGenerate_err_eq_false_iff _ s).1 herr
    rw [commandState, hl.boundedRun.outWord i hi]
    exact extract_lt _ hl.limit_ne

/-- Settles O29: every word both commands extract is a remainder modulo 1. -/
theorem boundOneDrawsZeros : Obligations.BoundOneDrawsZeros := by
  intro s t hone
  refine ⟨fun hs h => ?_, fun h herr i hi => ?_⟩ <;> obtain rfl := exec_next_iff.1 h
  · rw [commandState, aAdvance_of_seeded hs (by simp [hone]), hone]
    exact extract_one _
  · have hl := (aGenerate_err_eq_false_iff _ s).1 herr
    rw [commandState, hl.boundedRun.outWord i hi, hone]
    exact extract_one _

/-- Settles O30: all that a completed run leaves is said in terms of the derived seed, `COUNT` and `UPPER_LIMIT`. -/
theorem generateBoundedIsDeterministic : Obligations.GenerateBoundedIsDeterministic := by
  intro s s' t t' hcount hlimit hkey hiv h0 h1 h h' herr
  obtain rfl := exec_next_iff.1 h
  obtain rfl := exec_next_iff.1 h'
  have hseed : s.derivedSeed Config.params = s'.derivedSeed Config.params := State.derivedSeed_congr hkey hiv h0 h1
  have hl := (aGenerate_err_eq_false_iff _ s).1 herr
  have hl' : s'.LegalDraws Config.params := ⟨hcount ▸ hl.count_ne, hlimit ▸ hl.limit_ne, hcount ▸ hl.count_le⟩
  obtain ⟨hso, hfb, -, -, hlcg⟩ := hl.boundedRun.registers
  obtain ⟨hso', hfb', -, -, hlcg'⟩ := hl'.boundedRun.registers
  refine ⟨(aGenerate_err_eq_false_iff _ s').2 hl', ?_, ?_, ?_, fun i hi => ?_⟩ <;> simp only [commandState]
  · rw [hlcg, hlcg', hso, hso', hseed, hcount]
  · rw [hso, hso', hseed]
  · rw [hfb, hfb', hseed]
  · rw [hl.boundedRun.outWord i hi, hl'.boundedRun.outWord i (hcount ▸ hi), hseed, hlimit]

/-- Settles O31: the run leaves Mode A seeded, at the state of its last draw and with the same bound. -/
theorem advanceContinuesGenerate : Obligations.AdvanceContinuesGenerate := by
  intro s t u h herr hadv
  obtain rfl := exec_next_iff.1 h
  obtain rfl := exec_next_iff.1 hadv
  have hl := (aGenerate_err_eq_false_iff _ s).1 herr
  obtain ⟨-, -, hseeded, hlimit, hlcg⟩ := hl.boundedRun.registers
  simp only [commandState]
  rw [aAdvance_of_seeded hseeded (hlimit ▸ hl.limit_ne), hlimit, hlcg, Function.iterate_succ_apply', ← zext64_eq]
  exact ⟨rfl, rfl⟩

/-- Settles O26: past its two checks `A_ADVANCE` writes the next LCG state and its extraction, which are these numbers. -/
theorem advanceDrawsOneWord : Obligations.AdvanceDrawsOneWord := by
  intro s hs hu
  exact ⟨_, (exec_eq .aAdvance s).trans (congrArg _ (aAdvance_of_seeded hs hu)), rfl, toNat_lcgNext _, toNat_extract _ hu⟩

/-- Settles O24: without a failure the derived seed is the fold of both passes of `E`. -/
theorem deriveLoadsTheCipherSeed : Obligations.DeriveLoadsTheCipherSeed := by
  rintro s m seed hnf rfl rfl
  have h0 := hnf 0 (by decide)
  have h1 := hnf 1 (by decide)
  rw [exec_eq, commandState, aDerive_eq, State.derivedSeed, h0, h1, zext64_eq]
  rfl

/-- Settles O25: a failure of either pass gives the fallback seed, and a failure of the first makes the only draw. -/
theorem deriveFallsBackOnCipherFailure : Obligations.DeriveFallsBackOnCipherFailure := by
  intro s hfail
  have hseed : s.derivedSeed Config.params = (fallbackSeed, true) := by
    rw [State.derivedSeed, if_pos (by simpa using hfail)]
  rw [exec_eq, commandState, aDerive_eq, hseed]
  rfl

/-- Settles O23: the zero-extension of `SEED_IN` is its number on 64 bits. -/
theorem loadSeedLoadsTheState : Obligations.LoadSeedLoadsTheState := by
  intro s
  rw [exec_eq, commandState, aLoadSeed, zext64_eq]
  rfl

end Sys2Proof.Machine

/-! PROOFS of the statements about Mode B: its initialisation, one step of the stream, and the generation of words. -/

/-! ### `B_STEP` on a valid stream (R106) -/

namespace Sys2Proof.Machine

/-- A `B_STEP` on a valid stream whose application succeeds, and its reseed where one is due (R103, R104, R106). -/
theorem bStep_completes (P : Params) {s : State} (hr : s.status.bReady = true) (h0 : s.failsAt P 0 = false)
    (h1 : 512 < (s.bBytes + 64).toNat → s.failsAt P 1 = false) :
    (¬ 512 < (s.bBytes + 64).toNat ∧
        bStep P s = ((s.beginCommand.afterDraws 1).withStream (s.stream.apply P)).setReady true) ∨
      (512 < (s.bBytes + 64).toNat ∧
        bStep P s = ((s.beginCommand.afterDraws 2).withStream ((s.stream.apply P).reseed P)).setReady true) := by
  rcases bStep_cases P s with ⟨hr', -⟩ | ⟨-, c, -, hc⟩ | ⟨-, -, hle, he⟩ | ⟨-, -, hlt, -, he⟩
  · simp [hr'] at hr
  · rcases hc with ⟨hf, -⟩ | ⟨-, hlt, hf, -⟩
    · simp [hf] at h0
    · exact absurd (hf.symm.trans (h1 hlt)) (by decide)
  · exact .inl ⟨hle, he⟩
  · exact .inr ⟨hlt, he⟩

/-- A `B_STEP` on a valid stream whose `S` fails, or whose reseed is due and its `H` fails (R121, R122, R126). -/
theorem bStep_fails (P : Params) {s : State} {c : ErrorCode} (hr : s.status.bReady = true)
    (hc : s.failsAt P 0 = true ∧ c = .cipherFailure ∨
      s.failsAt P 0 = false ∧ 512 < (s.bBytes + 64).toNat ∧ s.failsAt P 1 = true ∧ c = .hashFailure) :
    FailedFrame P 0 c s (bStep P s) := by
  rcases bStep_cases P s with ⟨hr', -⟩ | ⟨-, c', hfr, hc'⟩ | ⟨-, h0, hle, -⟩ | ⟨-, h0, -, h1, -⟩
  · simp [hr'] at hr
  · have hcode : c' = c := by
      rcases hc with ⟨hf, rfl⟩ | ⟨hf, -, -, rfl⟩
      · simpa [hf] using hc'
      · simp only [hf, Bool.false_eq_true, false_and, false_or] at hc'
        exact hc'.2.2.2
    exact hcode ▸ hfr
  · simp only [h0, hle, Bool.false_eq_true, false_and, and_false, or_false] at hc
  · simp [h0, h1] at hc

end Sys2Proof.Machine

/-! ### The two ends of `B_GENERATE` (R107, R126 to R128) -/

namespace Sys2Proof.Machine

/-- The operands `B_GENERATE` accepts (R107, R120). -/
structure State.LegalWords (P : Params) (s : State) : Prop where
  count_ne : s.count ≠ 0
  count_le : s.count.toNat ≤ P.outCapacity

/-- The state in which the loop of `B_GENERATE` starts: the stream is that of `BMAT` (R105, R107). -/
def State.streamStart (P : Params) (s : State) : State :=
  (((s.beginCommand.setOutCount 0).afterDraws 1).withStream (Stream.init P s.bmat)).setReady true

@[simp] theorem State.streamStart_stream (P : Params) (s : State) : (s.streamStart P).stream = Stream.init P s.bmat := rfl

@[simp] theorem State.failsAt_streamStart (P : Params) (s : State) (k : Nat) :
    (s.streamStart P).failsAt P k = s.failsAt P (1 + k) := State.failsAt_afterDraws P s 1 k

theorem State.afterDraws_streamStart (P : Params) (s : State) (k : Nat) :
    (s.streamStart P).afterDraws k = { (s.afterDraws (1 + k)).withStream (Stream.init P s.bmat) with
      status := s.status.begun.withReady true, outCount := 0 } := by
  rw [← State.afterDraws_afterDraws]
  rfl

theorem State.NoFailure.streamStart {P : Params} {s : State} {n : Nat} (h : s.NoFailure P (1 + n)) :
    (s.streamStart P).NoFailure P n := fun k hk => by
  rw [State.failsAt_streamStart]
  exact h _ (by omega)

/-- With a legal `COUNT` the command is the derivation, the loop, and the write of `OUT_COUNT` (R107). -/
theorem State.LegalWords.bGenerate_eq {P : Params} {s : State} (h : s.LegalWords P) :
    bGenerate P s =
      if s.failsAt P 0 then
        State.primitiveFailure P .hashFailure s.count.toNat
          { (s.beginCommand.setOutCount 0).afterDraws 1 with roll := s.bmat }
      else
        ((generateLoop P s.count.toNat s.count.toNat 0 (s.streamStart P)).andThen
          fun s1 => .done (s1.setOutCount s.count)).finish P s.count.toNat := by
  have hlegal : ¬ (s.count = 0 ∨ P.outCapacity < s.count.toNat) := not_or.2 ⟨h.count_ne, Nat.not_lt.2 h.count_le⟩
  rw [bGenerate, if_neg hlegal, initStream_eq, State.failsAt_setOutCount, State.failsAt_beginCommand]
  cases s.failsAt P 0 <;> rfl

theorem State.primitiveFailure_errcode (P : Params) (c : ErrorCode) (n : Nat) (s : State) :
    (s.primitiveFailure P c n).status.errcode = c := by
  obtain ⟨x, m, -, he⟩ := s.primitiveFailure_eq P c n
  rw [he]
  rfl

/-- `t` is `s` after a `B_GENERATE` that completed (R107, R108, R112). -/
structure StreamRun (P : Params) (s t : State) : Prop where
  eq : t = { (s.afterDraws (invocations s.count.toNat)).withStream t.stream with
    status := s.status.begun.withReady true, outCount := s.count, out := t.out }
  stream : t.stream = (Stream.next P)^[applications s.count.toNat] (Stream.init P s.bmat)
  outWord : ∀ a j, j < 16 → 16 * a + j < s.count.toNat →
    t.outWord P (16 * a + j) = wordAt ((Stream.next P)^[a + 1] (Stream.init P s.bmat)).roll j
  out : WritesOut P 0 s.count.toNat s.out t.out

/-- Without a failure the command completes: the loop from its first iteration makes every draw after the derivation's. -/
theorem State.LegalWords.streamRun {P : Params} {s : State} (h : s.LegalWords P)
    (hf : s.NoFailure P (invocations s.count.toNat)) : StreamRun P s (bGenerate P s) := by
  have hinv : 1 + (invocations s.count.toNat - 1) = invocations s.count.toNat := by
    simp only [invocations]
    omega
  obtain ⟨m, hl, hw, hv⟩ := generateLoop_done P (n := s.count.toNat) s.count.toNat 0 (s.streamStart P) (by omega)
    (Nat.zero_le _) rfl (State.NoFailure.streamStart (hinv.symm ▸ hf))
  have hrun : bGenerate P s = ((((s.streamStart P).afterDraws (invocations s.count.toNat - 1)).withStream
      ((Stream.next P)^[applications s.count.toNat] (Stream.init P s.bmat))).setOut m).setOutCount s.count := by
    rw [h.bGenerate_eq, hf 0 (by simp only [invocations]; omega), if_neg (by simp)]
    exact congrArg (fun p => Progress.finish P _ (Progress.andThen p _)) hl
  rw [hrun]
  refine ⟨?_, rfl, fun a j hj hlt => ?_, hw⟩
  · rw [State.afterDraws_streamStart, hinv]
    rfl
  · have hword := hv a j hj (by rwa [Nat.zero_add])
    rw [Nat.zero_add, State.streamStart_stream] at hword
    exact (State.outWord_congr' rfl rfl _).trans hword

/-- The error of the first invocation that fails (R128): `H` is invocation 0 and every tenth after it, `S` every other one (R112). -/
theorem State.LegalWords.errcode_of_firstFailure {P : Params} {s : State} {k : Nat} (h : s.LegalWords P)
    (hk : k < invocations s.count.toNat) (hf : s.NoFailure P k) (hfail : s.failsAt P k = true) :
    (bGenerate P s).status.errcode = if k % 10 = 0 then .hashFailure else .cipherFailure := by
  rw [h.bGenerate_eq]
  cases k with
  | zero =>
    rw [if_pos hfail, State.primitiveFailure_errcode]
    rfl
  | succ k =>
    obtain ⟨t, hl⟩ := generateLoop_failed P (n := s.count.toNat) s.count.toNat 0 k (s.streamStart P) (by omega)
      (Nat.zero_le _) rfl (Nat.lt_sub_of_add_lt hk) (State.NoFailure.streamStart (Nat.add_comm k 1 ▸ hf))
      (by rw [State.failsAt_streamStart, Nat.add_comm, hfail])
    rw [Nat.mul_zero] at hl
    rw [hf 0 (by omega), if_neg (by simp), hl, Progress.andThen_failed, Progress.finish_failed,
      State.primitiveFailure_errcode, Nat.add_comm k 1]
    rfl

/-- The first failing invocation ends the command within the frame of a primitive failure (R126 to R128). -/
theorem State.LegalWords.failedFrame {P : Params} {s : State} {k : Nat} (h : s.LegalWords P)
    (hk : k < invocations s.count.toNat) (hf : s.NoFailure P k) (hfail : s.failsAt P k = true) :
    FailedFrame P s.count.toNat (if k % 10 = 0 then .hashFailure else .cipherFailure) (s.setOutCount 0) (bGenerate P s) := by
  have hcode := h.errcode_of_firstFailure hk hf hfail
  rcases bGenerate_cases P s with ⟨hbad, -⟩ | ⟨-, -, c, hfr⟩ | ⟨-, -, u, hu, -, -, he⟩
  · exact absurd hbad (not_or.2 ⟨h.count_ne, Nat.not_lt.2 h.count_le⟩)
  · rwa [← hcode, hfr.errcode_and_bReady.1]
  · have hnone : (bGenerate P s).status.errcode = .none := by simp [he, hu.status_eq]
    rw [hnone] at hcode
    split at hcode <;> cases hcode

/-- Either none of the next `n` invocations fails, or one of them is the first that does (R128). -/
theorem State.noFailure_or_firstFailure (P : Params) (s : State) (n : Nat) :
    s.NoFailure P n ∨ ∃ k, k < n ∧ s.NoFailure P k ∧ s.failsAt P k = true := by
  induction n with
  | zero => exact .inl fun k hk => absurd hk (Nat.not_lt_zero k)
  | succ n ih =>
    rcases ih with hf | ⟨k, hk, hfirst⟩
    · cases hn : s.failsAt P n
      · exact .inl fun k hk => (Nat.lt_succ_iff_lt_or_eq.1 hk).elim (hf k) fun h => h ▸ hn
      · exact .inr ⟨n, n.lt_succ_self, hf, hn⟩
    · exact .inr ⟨k, Nat.lt_succ_of_lt hk, hfirst⟩

/-- A `B_GENERATE` that records no error completed, and no primitive failed in it (R107, R116). -/
theorem bGenerate_run_of_no_err {P : Params} {s : State} (herr : (bGenerate P s).status.err = false) :
    StreamRun P s (bGenerate P s) := by
  have hfailed : ∀ {c s'}, ¬ FailedFrame P s.count.toNat c s' (bGenerate P s) := fun hfr => by
    simp [hfr.status_eq] at herr
  rcases bGenerate_cases P s with ⟨-, he⟩ | ⟨-, -, c, hfr⟩ | ⟨hc, hcap, -⟩
  · simp [he] at herr
  · exact absurd hfr hfailed
  · have hlegal : s.LegalWords P := ⟨hc, hcap⟩
    rcases s.noFailure_or_firstFailure P (invocations s.count.toNat) with hf | ⟨k, hk, hf, hfail⟩
    · exact hlegal.streamRun hf
    · exact absurd (hlegal.failedFrame hk hf hfail) hfailed

end Sys2Proof.Machine

/-! ### The chain of blocks (R112, R115) -/

namespace Sys2Proof.Machine

/-- The stream registers after `a` iterations from the material `m`. -/
def Stream.chain (P : Params) (m : Bytes 64) (a : Nat) : Stream := (Stream.next P)^[a] (Stream.init P m)

theorem Stream.chain_roll_succ (P : Params) (m : Bytes 64) (a : Nat) :
    (Stream.chain P m (a + 1)).roll = P.streamApply (Stream.chain P m a).bkey (Stream.chain P m a).bnonce
      (Stream.chain P m a).bCounter (Stream.chain P m a).roll := by
  rw [Stream.chain, Function.iterate_succ_apply', Stream.next_roll]
  rfl

/-- After every ninth block the key, the nonce and the counter are those of the digest of that block; after any other, the counter goes
up by 1 and the rest stays (R103, R104, R112). -/
theorem Stream.chain_keys_succ (P : Params) (m : Bytes 64) (a : Nat) :
    if (a + 1) % 9 = 0 then
      (Stream.chain P m (a + 1)).bkey = digestKey (P.hash384 (Stream.chain P m (a + 1)).roll) ∧
      (Stream.chain P m (a + 1)).bnonce = digestNonce (P.hash384 (Stream.chain P m (a + 1)).roll) ∧
      (Stream.chain P m (a + 1)).bCounter = digestCounter (P.hash384 (Stream.chain P m (a + 1)).roll)
    else
      (Stream.chain P m (a + 1)).bkey = (Stream.chain P m a).bkey ∧
      (Stream.chain P m (a + 1)).bnonce = (Stream.chain P m a).bnonce ∧
      (Stream.chain P m (a + 1)).bCounter = (Stream.chain P m a).bCounter + 1 := by
  have hnext : Stream.chain P m (a + 1) = if (a + 1) % 9 = 0 then ((Stream.chain P m a).apply P).reseed P
    else (Stream.chain P m a).apply P := Stream.iterate_next P m a
  rw [hnext]
  split <;> exact ⟨rfl, rfl, rfl⟩

end Sys2Proof.Machine

/-! ### The obligations -/

namespace Sys2Proof.Machine

/-- Settles O32: the only invocation is the derivation's, and it succeeds. -/
theorem initStreamFromTheDigest : Obligations.InitStreamFromTheDigest := by
  rintro s d hnf rfl
  rcases bInit_cases Config.params s with ⟨hf, -⟩ | ⟨-, he⟩
  · exact absurd (hf.symm.trans (hnf 0 (by decide))) (by decide)
  · rw [exec_eq, commandState, he]
    rfl

/-- Settles O34: no reseed is due. -/
theorem stepAppliesTheStreamCipher : Obligations.StepAppliesTheStreamCipher := by
  intro s hr hle hnf
  rcases bStep_completes Config.params hr (hnf 0 (by decide)) fun hlt => absurd hle (Nat.not_le.2 hlt) with
    ⟨-, he⟩ | ⟨hlt, -⟩
  · rw [exec_eq, commandState, he]
    rfl
  · exact absurd hle (Nat.not_le.2 hlt)

/-- Settles O35: a reseed is due, and both invocations succeed. -/
theorem stepReseedsAboveTheThreshold : Obligations.StepReseedsAboveTheThreshold := by
  rintro s r d hr hdue hnf rfl rfl
  rcases bStep_completes Config.params hr (hnf 0 (by decide)) fun _ => hnf 1 (by decide) with ⟨h, -⟩ | ⟨-, he⟩
  · exact absurd hdue h
  · rw [exec_eq, commandState, he]
    rfl

/-- Settles O36: the frame of a primitive failure, in which a `B_STEP` writes no word of `OUT`. -/
theorem stepPrimitiveFailures : Obligations.StepPrimitiveFailures := by
  intro s c hr hc
  have hfr := bStep_fails Config.params hr hc
  have heq := hfr.eq
  rw [hfr.out.empty le_rfl] at heq
  exact ⟨_, exec_eq .bStep s, heq⟩

/-- Settles O37: a run with a legal `COUNT` is a `StreamRun`, whose writes lie in `OUT[0..COUNT)`. -/
theorem generateStreamFillsOut : Obligations.GenerateStreamFillsOut := by
  intro s hc hcap hnf
  have hrun := State.LegalWords.streamRun ⟨hc, hcap⟩ hnf
  refine ⟨_, exec_eq .bGenerate s, hrun.eq, hrun.stream, hrun.outWord, fun a ha => ?_⟩
  refine State.outByte_congr (hrun.out.kept a ha) ?_
  rw [commandState, hrun.eq]
  rfl

/-- Settles O38: the byte count and the count of reseeds after the run's applications. -/
theorem reseedCadence : Obligations.ReseedCadence := by
  intro s t hc hcap hnf h
  obtain rfl := exec_next_iff.1 h
  have hrun := State.LegalWords.streamRun ⟨hc, hcap⟩ hnf
  obtain ⟨hbytes, hreseeds⟩ := Stream.iterate_bytes Config.params s.bmat (applications s.count.toNat)
  rw [← hrun.stream] at hbytes hreseeds
  refine ⟨?_, hbytes⟩
  have hlt : applications s.count.toNat / 9 < 2 ^ 32 := by
    have := s.count.isLt
    simp only [applications]
    omega
  calc (bGenerate Config.params s).reseedCount.toNat
      = (BitVec.ofNat 32 (applications s.count.toNat / 9)).toNat := congrArg BitVec.toNat hreseeds
    _ = applications s.count.toNat / 9 := by rw [BitVec.toNat_ofNat, Nat.mod_eq_of_lt hlt]

/-- Settles O39: the blocks and their keys are the stream registers of the iterations from `BMAT`. -/
theorem outputBlocksAreChained : Obligations.OutputBlocksAreChained := by
  intro s t h herr
  obtain rfl := exec_next_iff.1 h
  have hrun := bGenerate_run_of_no_err herr
  exact ⟨fun a => (Stream.chain Config.params s.bmat a).roll, fun a => (Stream.chain Config.params s.bmat a).bkey,
    fun a => (Stream.chain Config.params s.bmat a).bnonce, fun a => (Stream.chain Config.params s.bmat a).bCounter,
    rfl, rfl, rfl, rfl, Stream.chain_roll_succ Config.params s.bmat, Stream.chain_keys_succ Config.params s.bmat,
    hrun.outWord, congrArg Stream.roll hrun.stream⟩

/-- Settles O40: the frame of the first failing invocation's error, whose writes lie in `OUT[0..COUNT)`. -/
theorem generateStreamPrimitiveFailure : Obligations.GenerateStreamPrimitiveFailure := by
  intro s k hc hcap hk hnf hfail
  have hfr := State.LegalWords.failedFrame ⟨hc, hcap⟩ hk hnf hfail
  refine ⟨_, exec_eq .bGenerate s, hfr.eq, fun a ha => ?_⟩
  refine State.outByte_congr (hfr.out.kept a ha) ?_
  rw [commandState, hfr.eq]
  rfl

/-- Settles O41: all that a completed run leaves is said in terms of `COUNT` and `BMAT`. -/
theorem generateStreamIsDeterministic : Obligations.GenerateStreamIsDeterministic := by
  intro s s' t t' hcount hbmat h h' herr herr'
  obtain rfl := exec_next_iff.1 h
  obtain rfl := exec_next_iff.1 h'
  have hrun := bGenerate_run_of_no_err herr
  have hrun' := bGenerate_run_of_no_err herr'
  refine ⟨?_, fun i hi => ?_⟩ <;> simp only [commandState]
  · rw [hrun.stream, hrun'.stream, hcount, hbmat]
  · have hj := Nat.mod_lt i (show 16 > 0 by omega)
    rw [← Nat.div_add_mod i 16] at hi ⊢
    rw [hrun.outWord _ _ hj hi, hrun'.outWord _ _ hj (hcount ▸ hi), hbmat]

end Sys2Proof.Machine

/-! PROOFS of the statements about errors: how a command ends, what each error leaves, and the source's results. -/

/-! ### The checks that end a command (R118 to R120, R125) -/

namespace Sys2Proof.Machine

/-- What a command that ends with an error before it does anything leaves: the three error fields written, nothing else (R125). -/
theorem State.raise_beginCommand (s : State) (c : ErrorCode) :
    s.beginCommand.raise c = { s with status := { s.status with err := true, errSticky := true, errcode := c } } := rfl

/-- An error after an error changes the code alone (R124, R125). -/
theorem State.raise_beginCommand_of_error {s : State} (herr : s.status.err = true) (hsticky : s.status.errSticky = true)
    (c : ErrorCode) : s.beginCommand.raise c = { s with status := { s.status with errcode := c } } := by
  simp [State.raise_beginCommand, herr, hsticky]

theorem issueCommand_of_error {w : Word} (h : ∃ e, decodeWord w = .error e) (s : State) :
    issueCommand w s = .next (s.beginCommand.raise .illegalCommand) := by
  obtain ⟨e, he⟩ := h
  rw [issueCommand, he]
  rfl

/-- The opcodes of R78 as a list are the assigned numbers. -/
theorem mem_opcodes_iff (b : Byte) :
    b ∈ [0x01#8, 0x02#8, 0x03#8, 0x04#8, 0x11#8, 0x12#8, 0x13#8] ↔ IsAssigned b.toNat := by
  simp only [List.mem_cons, List.not_mem_nil, or_false, ← BitVec.toNat_inj, BitVec.toNat_ofNat, IsAssigned]
  omega

theorem aAdvance_of_unseeded {s : State} (h : s.status.aSeeded = false) :
    aAdvance s = s.beginCommand.raise .sequenceError := by rw [aAdvance, if_pos h]

theorem aAdvance_of_no_limit {s : State} (hs : s.status.aSeeded = true) (hu : s.upperLimit = 0) :
    aAdvance s = s.beginCommand.raise .invalidArgument := by rw [aAdvance, if_neg (by simp [hs]), if_pos hu]

theorem bStep_of_not_ready (P : Params) {s : State} (h : s.status.bReady = false) :
    bStep P s = s.beginCommand.raise .sequenceError := by rw [bStep, if_pos h]

theorem aGenerate_of_bad_operands {P : Params} {s : State}
    (h : s.count = 0 ∨ s.upperLimit = 0 ∨ P.outCapacity < s.count.toNat) :
    aGenerate P s = (s.beginCommand.setOutCount 0).raise .invalidArgument := by rw [aGenerate, if_pos h]

theorem bGenerate_of_bad_count {P : Params} {s : State} (h : s.count = 0 ∨ P.outCapacity < s.count.toNat) :
    bGenerate P s = (s.beginCommand.setOutCount 0).raise .invalidArgument := by rw [bGenerate, if_pos h]

end Sys2Proof.Machine

/-! ### How a command ends (R116, R126) -/

namespace Sys2Proof.Machine

/-- Each error has a number of its own (R117). -/
theorem ErrorCode.bits_injective : Function.Injective ErrorCode.bits := by
  intro c d
  cases c <;> cases d <;> decide

/-- `ERR` is clear exactly where `ERRCODE` is 0, after every command (R116). -/
theorem CommandFrame.err_eq_false_iff {P : Params} {n : Nat} {s t : State} (h : CommandFrame P n s t) :
    t.status.err = false ↔ t.status.errcode = .none := by
  rw [← Bool.not_eq_true, h.err_iff, not_not]

/-- A command that ended with an error set `ERR` and `ERR_STICKY` (R124). -/
theorem CommandFrame.error_flags {P : Params} {n : Nat} {s t : State} (h : CommandFrame P n s t)
    (hc : t.status.errcode ≠ .none) : t.status.err = true ∧ t.status.errSticky = true := by
  have herr : t.status.err = true := h.err_iff.2 hc
  exact ⟨herr, by rw [h.errSticky, herr, Bool.or_true]⟩

/-- A command that ended with a primitive failure left no valid stream state (R126). -/
theorem commandState_not_ready (P : Params) (i : Instr) {s : State}
    (h : (commandState P i s).status.errcode = .hashFailure ∨ (commandState P i s).status.errcode = .cipherFailure) :
    (commandState P i s).status.bReady = false := by
  cases i with
  | aLoadSeed => rcases h with h | h <;> cases h
  | aDerive =>
    rw [commandState, aDerive_eq] at h
    rcases h with h | h <;> cases h
  | aAdvance => rcases aAdvance_errcode s with he | he | he <;> simp [commandState, he] at h
  | aGenerate => rcases aGenerate_flags P s with ⟨he, -⟩ | ⟨he, -⟩ <;> simp [commandState, he] at h
  | bInit =>
    rcases bInit_flags P s with ⟨he, -⟩ | ⟨-, hr⟩
    · simp [commandState, he] at h
    · exact hr
  | bStep =>
    rcases bStep_flags P s with ⟨he, -⟩ | ⟨he, -⟩ | ⟨-, hr⟩
    · simp [commandState, he] at h
    · simp [commandState, he] at h
    · exact hr
  | bGenerate =>
    rcases bGenerate_flags P s with ⟨he, -⟩ | ⟨he, -⟩ | ⟨-, hr⟩
    · simp [commandState, he] at h
    · simp [commandState, he] at h
    · exact hr

end Sys2Proof.Machine

/-! ### The source's result (R139) -/

namespace Sys2Proof.Machine

variable {P : Params} {s : State}

theorem State.sourceResult_of_none (h : s.status.errcode = .none) :
    s.sourceResult P = .ok ((List.range s.outCount.toNat).map (s.outWord P)) := by rw [State.sourceResult, h]

theorem State.sourceResult_of_invalidArgument (h : s.status.errcode = .invalidArgument) :
    s.sourceResult P = .invalidArgument := by rw [State.sourceResult, h]

theorem State.sourceResult_of_primitiveFailure (h : s.status.errcode = .hashFailure ∨ s.status.errcode = .cipherFailure) :
    s.sourceResult P = .primitiveFailure := by rcases h with h | h <;> rw [State.sourceResult, h]

/-- The errors a generate command may end with, and no other (R52). -/
theorem generate_errcode (P : Params) (s : State) {i : Instr} (h : i = .aGenerate ∨ i = .bGenerate) :
    (commandState P i s).status.errcode = .none ∨ (commandState P i s).status.errcode = .invalidArgument ∨
      (commandState P i s).status.errcode = .hashFailure ∨ (commandState P i s).status.errcode = .cipherFailure := by
  rcases h with rfl | rfl
  · rcases aGenerate_flags P s with ⟨he, -⟩ | ⟨he, -⟩
    · exact .inl he
    · exact .inr (.inl he)
  · rcases bGenerate_flags P s with ⟨he, -⟩ | ⟨he, -⟩ | ⟨he, -⟩
    · exact .inl he
    · exact .inr (.inl he)
    · exact .inr (.inr he)

/-- The fallback flag of a derivation is the failure of either pass of `E` (R89). -/
theorem State.derivedSeed_snd (P : Params) (s : State) :
    (s.derivedSeed P).2 = (s.failsAt P 0 || s.failsAt P 1) := by
  rw [State.derivedSeed]
  cases s.failsAt P 0 || s.failsAt P 1 <;> rfl

end Sys2Proof.Machine

/-! ### The obligations -/

namespace Sys2Proof.Machine

/-- Settles O9: a word with `RSV` set, or with an opcode that is not assigned, is no word of R78. -/
theorem illegalCommandIsRecorded : Obligations.IllegalCommandIsRecorded := by
  intro s rest w hb hp hw
  have hdec : ∃ e, decodeWord w = .error e := by
    rw [decodeWord_isError_iff]
    rcases hw with hrsv | hopc
    · rw [ne_eq, rsv_eq_zero_iff] at hrsv
      simp only [IsAssigned]
      omega
    · rw [mem_opcodes_iff, toNat_opc] at hopc
      simp only [IsAssigned] at hopc ⊢
      omega
  rw [step_writeCmd hp hb, issueCommand_of_error hdec, State.raise_beginCommand]

/-- Settles O33: the frame of a primitive failure, in which `B_INIT` writes no word of `OUT`. -/
theorem initHashFailure : Obligations.InitHashFailure := by
  intro s hfail
  rcases bInit_cases Config.params s with ⟨-, hfr⟩ | ⟨hok, -⟩
  · have heq := hfr.eq
    rw [hfr.out.empty le_rfl] at heq
    exact ⟨_, exec_eq .bInit s, heq⟩
  · simp [hok] at hfail

/-- Settles O42: the failed command cleared `B_READY` and set `ERR` and `ERR_STICKY`, so the check of `B_STEP` changes `ERRCODE`
alone. -/
theorem failedStreamIsNotStepped : Obligations.FailedStreamIsNotStepped := by
  intro i s t h hc
  obtain rfl := exec_next_iff.1 h
  obtain ⟨herr, hsticky⟩ := (commandState_frame Config.params i s).error_flags (by rcases hc with hc | hc <;> simp [hc])
  rw [exec_eq, commandState, bStep_of_not_ready _ (commandState_not_ready _ i hc),
    State.raise_beginCommand_of_error herr hsticky]

/-- Settles O43: the first check of either command. -/
theorem sequenceErrorWithoutState : Obligations.SequenceErrorWithoutState := by
  intro s
  refine ⟨fun hs => ?_, fun hr => ?_⟩
  · rw [exec_eq, commandState, aAdvance_of_unseeded hs, State.raise_beginCommand]
  · rw [exec_eq, commandState, bStep_of_not_ready _ hr, State.raise_beginCommand]

/-- Settles O44: the check of the operands, after the generate commands cleared `OUT_COUNT`. -/
theorem invalidArgumentOnBadOperands : Obligations.InvalidArgumentOnBadOperands := by
  intro s
  refine ⟨fun hs hu => ?_, fun hbad => ?_, fun hbad => ?_⟩
  · rw [exec_eq, commandState, aAdvance_of_no_limit hs hu, State.raise_beginCommand]
  · rw [exec_eq, commandState, aGenerate_of_bad_operands (hbad.imp_right Or.symm)]
    rfl
  · rw [exec_eq, commandState, bGenerate_of_bad_count hbad]
    rfl

/-- Settles O45: after every command `ERR` and `ERRCODE` agree, and only the code of no error is 0. -/
theorem everyCommandCompletesOrRecordsAnError : Obligations.EveryCommandCompletesOrRecordsAnError := by
  intro i s
  refine ⟨_, exec_eq i s, ?_⟩
  have hf := commandState_frame Config.params i s
  cases herr : (commandState Config.params i s).status.err
  · exact .inl ⟨rfl, by rw [hf.err_eq_false_iff.1 herr]; rfl⟩
  · exact .inr ⟨rfl, fun hz => hf.err_iff.1 herr (ErrorCode.bits_injective hz)⟩

/-- Settles O52: the result follows `ERRCODE`, which is one of the four a generate command ends with, and `OUT_COUNT` is `COUNT` where
there is no error. -/
theorem sourceResultIsReadFromStatus : Obligations.SourceResultIsReadFromStatus := by
  intro i s t hi h
  obtain rfl := exec_next_iff.1 h
  refine ⟨fun herr => ?_, fun h3 => ?_, fun h45 => ?_, fun ha herr => ?_, ?_⟩
  · rw [State.sourceResult_of_none ((commandState_frame _ i s).err_eq_false_iff.1 herr),
      (commandState_generateEnd _ s hi).outCount_eq, herr, if_neg (by decide)]
  · exact State.sourceResult_of_invalidArgument (ErrorCode.bits_injective h3)
  · exact State.sourceResult_of_primitiveFailure
      (h45.imp (fun h4 => ErrorCode.bits_injective h4) fun h5 => ErrorCode.bits_injective h5)
  · subst ha
    have hrun := ((aGenerate_err_eq_false_iff _ s).1 herr).boundedRun
    obtain ⟨-, hfb, -⟩ := hrun.registers
    exact hfb.trans (State.derivedSeed_snd _ s)
  · rcases generate_errcode Config.params s hi with he | he | he
    · simp [State.sourceResult_of_none he]
    · simp [State.sourceResult_of_invalidArgument he]
    · simp [State.sourceResult_of_primitiveFailure he]

end Sys2Proof.Machine

/-! PROOFS of the statements about a step that takes no host access: the reset event and the idle engine. -/

/-! ### Such a step, and `OUT` after reset (R140, R141) -/

namespace Sys2Proof.Machine

theorem step_of_pending_nil {s : State} (hp : s.pending = []) : step s = .next s := by
  rw [step, hp]

/-- A step whose next event is reset (R140). -/
theorem step_reset {s : State} {rest : List HostEvent} (hp : s.pending = .reset :: rest) :
    step s = .next ({ s with pending := rest } : State).applyReset :=
  step_cons hp

/-- Reset lists no byte of `OUT`: each reads as the free byte of the reset's draw (R140). -/
theorem State.outByte_applyReset (P : Params) (s : State) (a : Nat) :
    s.applyReset.outByte P a = P.unspecifiedByte s.draws a := rfl

end Sys2Proof.Machine

/-! ### The obligations -/

namespace Sys2Proof.Machine

/-- Settles O3: the step is `State.applyReset` after the event is taken off the list, and it counts the draw that fills `OUT`. -/
theorem resetEventRestoresReset : Obligations.ResetEventRestoresReset := by
  intro s rest hp
  refine ⟨_, step_reset hp, rfl, ?_, fun a => ?_⟩
  · exact Nat.lt_succ_self s.draws
  · exact State.outByte_applyReset Config.params { s with pending := rest } a

/-- Settles O10: with the host's list empty a step performs no event. -/
theorem idleEngineKeepsItsState : Obligations.IdleEngineKeepsItsState := fun _ => step_of_pending_nil

end Sys2Proof.Machine
